-- ==== Sys2Proof/Word.lean ====
section
/-! DEFINITION. The words of the machine (spec/00_scope.md section 6): bits 0 upward from the least
significant, every value unsigned. -/

namespace Sys2Proof

/-- A memory byte, a general register, a timer, a `kk` immediate (8 bits). -/
abbrev Byte := BitVec 8

/-- `PC`, `I`, a `Stack` entry, an instruction word (16 bits). -/
abbrev Word := BitVec 16

/-- One hexadecimal digit of an instruction word (4 bits). -/
abbrev Nibble := BitVec 4

/-- The `nnn` field, an absolute byte address 0x000 to 0xFFF (12 bits). -/
abbrev Addr := BitVec 12

/-- The index of a general register, `V[0]` to `V[15]` (R10). -/
abbrev Reg := Fin 16

end Sys2Proof
end

