-- ==== Sys2Proof/Syntax.lean ====
section
/-! DEFINITION. The 22 instructions of the opcode map (R55), one constructor per row of
spec/opcode_table.json, in the table's order. The operands carry their bounds in their types:
every value of every field is legal (R54). -/

namespace Sys2Proof

inductive Instr where
  /-- `0?EE` `RET`. `ignored` is the nibble `n2`, which takes no part in the selection and has no
  effect (R56). It is kept because `ERR.opcode` records the fetched word (R123). -/
  | ret (ignored : Nibble)
  /-- `1nnn` `JP nnn` -/
  | jp (nnn : Addr)
  /-- `2nnn` `CALL nnn` -/
  | call (nnn : Addr)
  /-- `3xkk` `SE Vx, kk` -/
  | se (x : Reg) (kk : Byte)
  /-- `4xkk` `SNE Vx, kk` -/
  | sne (x : Reg) (kk : Byte)
  /-- `6xkk` `LD Vx, kk` -/
  | ldImm (x : Reg) (kk : Byte)
  /-- `7xkk` `ADD Vx, kk` -/
  | addImm (x : Reg) (kk : Byte)
  /-- `8xy0` `LD Vx, Vy` -/
  | ldReg (x y : Reg)
  /-- `8xy2` `AND Vx, Vy` -/
  | andReg (x y : Reg)
  /-- `8xy4` `ADD Vx, Vy` -/
  | addReg (x y : Reg)
  /-- `8xy5` `SUB Vx, Vy` -/
  | subReg (x y : Reg)
  /-- `Annn` `LD I, nnn` -/
  | ldI (nnn : Addr)
  /-- `Cxkk` `RND Vx, kk` -/
  | rnd (x : Reg) (kk : Byte)
  /-- `Dxyn` `DRW Vx, Vy, n`; `n` is the row count, 0 to 15 (R57) -/
  | drw (x y : Reg) (n : Fin 16)
  /-- `Ex9E` `SKP Vx` -/
  | skp (x : Reg)
  /-- `ExA1` `SKNP Vx` -/
  | sknp (x : Reg)
  /-- `Fx07` `LD Vx, DT` -/
  | ldVxDt (x : Reg)
  /-- `Fx15` `LD DT, Vx` -/
  | ldDtVx (x : Reg)
  /-- `Fx18` `LD ST, Vx` -/
  | ldStVx (x : Reg)
  /-- `Fx29` `LD F, Vx` -/
  | ldF (x : Reg)
  /-- `Fx33` `LD B, Vx` -/
  | ldB (x : Reg)
  /-- `Fx65` `LD Vx, [I]` -/
  | ldVxI (x : Reg)
  deriving DecidableEq, Repr

end Sys2Proof
end

