-- ==== Sys2Proof/Config.lean ====
section
/-! DEFINITION. The fixed sizes of the machine (R7), the parameters the spec leaves open
(`TIMER_UNDERFLOW`, `FONT`), and the free value `RandByte()`. The parameters' defaults stand in
Machine/Defaults.lean. -/

namespace Sys2Proof.Config

/-- `MEM_SIZE`: addresses 0x000 to 0xFFF (R7). -/
abbrev memSize : Nat := 4096

/-- `PROG_BASE`: the entry point and the write floor (R7, R34). -/
abbrev progBase : Nat := 0x200

/-- `GLYPH_BYTES` (R7). -/
abbrev glyphBytes : Nat := 5

/-- The bytes the font occupies from `FONT_BASE` = 0x000: `GLYPHS` × `GLYPH_BYTES` (R7). -/
abbrev fontSize : Nat := 80

/-- `LOAD_MAX`, the longest image `LOAD` accepts (R7, R143). -/
abbrev loadMax : Nat := 3584

/-- `RandByte()`: the byte of the `k`-th call. A free value: the constant has no body, so every
byte is possible at every call (R5, R86; log 2). -/
opaque randByte : Nat → Byte

end Sys2Proof.Config

namespace Sys2Proof

/-- The parameter `TIMER_UNDERFLOW`: what `TICK` does to a timer that holds 0 (R133). -/
inductive TimerUnderflow where
  | saturate
  | wrap
  deriving DecidableEq, Repr

/-- The parameter `FONT`: 16 glyphs of 5 rows (R25). -/
abbrev Font := Vector (Vector Byte 5) 16

/-- The parameters the spec leaves open (R7, section 5 of 00_scope.md), fixed for a machine. -/
structure Config where
  timerUnderflow : TimerUnderflow
  font : Font
  deriving DecidableEq, Repr

end Sys2Proof
end

