-- ==== Sys2Proof/WellFormed.lean ====
section
/-! DEFINITION. What is checked of the things that enter the machine from outside: an instruction
word against the opcode map (R55), a program image against the length limit of `LOAD` (R143), and
an instruction term, whose operands carry their bounds in their types (R54). -/

namespace Sys2Proof

/-- One row of the opcode map (R55): a word `w` selects the row when `w & mask = pattern`. -/
structure OpcodeRow where
  mask : Word
  pattern : Word
  deriving DecidableEq, Repr

/-- The word selects the row (R55). -/
def OpcodeRow.selects (r : OpcodeRow) (w : Word) : Bool := w &&& r.mask == r.pattern

/-- The row of the opcode map that an instruction belongs to (R55, rows 1 to 22). -/
def Instr.row : Instr → OpcodeRow
  | .ret _      => ⟨0xF0FF, 0x00EE⟩
  | .jp _       => ⟨0xF000, 0x1000⟩
  | .call _     => ⟨0xF000, 0x2000⟩
  | .se _ _     => ⟨0xF000, 0x3000⟩
  | .sne _ _    => ⟨0xF000, 0x4000⟩
  | .ldImm _ _  => ⟨0xF000, 0x6000⟩
  | .addImm _ _ => ⟨0xF000, 0x7000⟩
  | .ldReg _ _  => ⟨0xF00F, 0x8000⟩
  | .andReg _ _ => ⟨0xF00F, 0x8002⟩
  | .addReg _ _ => ⟨0xF00F, 0x8004⟩
  | .subReg _ _ => ⟨0xF00F, 0x8005⟩
  | .ldI _      => ⟨0xF000, 0xA000⟩
  | .rnd _ _    => ⟨0xF000, 0xC000⟩
  | .drw _ _ _  => ⟨0xF000, 0xD000⟩
  | .skp _      => ⟨0xF0FF, 0xE09E⟩
  | .sknp _     => ⟨0xF0FF, 0xE0A1⟩
  | .ldVxDt _   => ⟨0xF0FF, 0xF007⟩
  | .ldDtVx _   => ⟨0xF0FF, 0xF015⟩
  | .ldStVx _   => ⟨0xF0FF, 0xF018⟩
  | .ldF _      => ⟨0xF0FF, 0xF029⟩
  | .ldB _      => ⟨0xF0FF, 0xF033⟩
  | .ldVxI _    => ⟨0xF0FF, 0xF065⟩

/-- The opcode map (R55): the 22 rows in the order of the document's table. -/
def opcodeMap : List OpcodeRow :=
  [Instr.row (.ret 0), Instr.row (.jp 0), Instr.row (.call 0), Instr.row (.se 0 0),
   Instr.row (.sne 0 0), Instr.row (.ldImm 0 0), Instr.row (.addImm 0 0), Instr.row (.ldReg 0 0),
   Instr.row (.andReg 0 0), Instr.row (.addReg 0 0), Instr.row (.subReg 0 0)] ++
  [Instr.row (.ldI 0), Instr.row (.rnd 0 0), Instr.row (.drw 0 0 0), Instr.row (.skp 0),
   Instr.row (.sknp 0), Instr.row (.ldVxDt 0), Instr.row (.ldDtVx 0), Instr.row (.ldStVx 0),
   Instr.row (.ldF 0), Instr.row (.ldB 0), Instr.row (.ldVxI 0)]

/-- The word is one of the implemented ones: some row of the opcode map selects it (R55, R58). -/
def wordWellFormed (w : Word) : Bool := opcodeMap.any (·.selects w)

/-- The image fits the program region: at most `LOAD_MAX` bytes (R143). -/
def imageWellFormed (bytes : List Byte) : Bool := decide (bytes.length ≤ Config.loadMax)

/-- Every instruction term is well formed: an index is a `Fin 16`, `kk` 8 bits, `nnn` 12 bits, and
"every value is legal" (R54). An ill-formed term cannot be written. -/
def Instr.wellFormed : Instr → Bool
  | .ret _ | .jp _ | .call _ | .se _ _ | .sne _ _ | .ldImm _ _ | .addImm _ _ | .ldReg _ _
  | .andReg _ _ | .addReg _ _ | .subReg _ _ | .ldI _ | .rnd _ _ | .drw _ _ _ | .skp _ | .sknp _
  | .ldVxDt _ | .ldDtVx _ | .ldStVx _ | .ldF _ | .ldB _ | .ldVxI _ => true

end Sys2Proof
end

