-- ==== Sys2Proof/Decode.lean ====
section
/-! DEFINITION. The decoder (R50), the selection (R53), and the encoder written from the same
formats (R51, R55). -/

namespace Sys2Proof

/-- Why two bytes are no instruction: the word matches no row of the opcode map (R58). -/
inductive DecodeReject where
  | unimplementedOpcode (word : Word)
  deriving DecidableEq, Repr

/-- The register index a nibble names (R54). -/
def regOfNibble (n : Nibble) : Reg := ⟨n.toNat, n.isLt⟩

/-- The nibble that names a register index. -/
def nibbleOfReg (r : Reg) : Nibble := BitVec.ofNat 4 r.val

/-- The six fields the decoder produces (R50). -/
structure Fields where
  n1 : Nibble
  n2 : Nibble
  n3 : Nibble
  n4 : Nibble
  byteImm : Byte
  addr : Addr
  deriving DecidableEq, Repr

/-- `Decode(b1, b2)` of R50: a pure function of two bytes, with no failure mode. -/
def fieldsOf (b1 b2 : Byte) : Fields where
  n1 := b1.extractLsb' 4 4
  n2 := b1.extractLsb' 0 4
  n3 := b2.extractLsb' 4 4
  n4 := b2.extractLsb' 0 4
  byteImm := b2
  addr := b1.extractLsb' 0 4 ++ b2

/-- The sub-selection of family 0x8 on `n4` (R53). -/
def selectFamily8 (x y : Reg) (n4 : Nibble) : Option Instr :=
  if n4 = 0x0 then some (.ldReg x y)
  else if n4 = 0x2 then some (.andReg x y)
  else if n4 = 0x4 then some (.addReg x y)
  else if n4 = 0x5 then some (.subReg x y)
  else none

/-- The sub-selection of family 0xE on `byteImm` (R53). -/
def selectFamilyE (x : Reg) (byteImm : Byte) : Option Instr :=
  if byteImm = 0x9E then some (.skp x)
  else if byteImm = 0xA1 then some (.sknp x)
  else none

/-- The sub-selection of family 0xF on `byteImm` (R53). -/
def selectFamilyF (x : Reg) (byteImm : Byte) : Option Instr :=
  if byteImm = 0x07 then some (.ldVxDt x)
  else if byteImm = 0x15 then some (.ldDtVx x)
  else if byteImm = 0x18 then some (.ldStVx x)
  else if byteImm = 0x29 then some (.ldF x)
  else if byteImm = 0x33 then some (.ldB x)
  else if byteImm = 0x65 then some (.ldVxI x)
  else none

/-- `Select` of R53 together with the operands of R54: dispatch on `n1`, sub-dispatch on `n4` or
`byteImm`. `none` is R53's "Unimplemented". -/
def select (f : Fields) : Option Instr :=
  let x := regOfNibble f.n2
  let y := regOfNibble f.n3
  match f.n1.toNat with
  | 0x0 => if f.byteImm = 0xEE then some (.ret f.n2) else none
  | 0x1 => some (.jp f.addr)
  | 0x2 => some (.call f.addr)
  | 0x3 => some (.se x f.byteImm)
  | 0x4 => some (.sne x f.byteImm)
  | 0x6 => some (.ldImm x f.byteImm)
  | 0x7 => some (.addImm x f.byteImm)
  | 0x8 => selectFamily8 x y f.n4
  | 0xA => some (.ldI f.addr)
  | 0xC => some (.rnd x f.byteImm)
  | 0xD => some (.drw x y (regOfNibble f.n4))
  | 0xE => selectFamilyE x f.byteImm
  | 0xF => selectFamilyF x f.byteImm
  | _ => none

/-- Decode the two bytes of an instruction, the one at the lower address first: an instruction, or
the rejection that names the word (R50, R53, R58). -/
def decode (b1 b2 : Byte) : Except DecodeReject Instr :=
  match select (fieldsOf b1 b2) with
  | some i => .ok i
  | none => .error (.unimplementedOpcode (b1 ++ b2))

/-- The byte at the lower address of a word stored big-endian (R31). -/
def hiByte (w : Word) : Byte := w.extractLsb' 8 8

/-- The byte at the higher address of a word stored big-endian (R31). -/
def loByte (w : Word) : Byte := w.extractLsb' 0 8

/-- A word of four nibbles, `n1` most significant (R50). -/
def wordOfNibbles (n1 n2 n3 n4 : Nibble) : Word := n1 ++ n2 ++ n3 ++ n4

/-- Format `A`: `n1`, `addr` (R51). -/
def wordA (n1 : Nibble) (nnn : Addr) : Word := n1 ++ nnn

/-- Formats `Z`, `XK` and `XS`: `n1`, `n2`, `byteImm` (R51). -/
def wordXK (n1 n2 : Nibble) (kk : Byte) : Word := n1 ++ n2 ++ kk

/-- The encoder: the word of an instruction (formats R51, rows R55). -/
def encode : Instr → Word
  | .ret ign     => wordXK 0x0 ign 0xEE
  | .jp nnn      => wordA 0x1 nnn
  | .call nnn    => wordA 0x2 nnn
  | .se x kk     => wordXK 0x3 (nibbleOfReg x) kk
  | .sne x kk    => wordXK 0x4 (nibbleOfReg x) kk
  | .ldImm x kk  => wordXK 0x6 (nibbleOfReg x) kk
  | .addImm x kk => wordXK 0x7 (nibbleOfReg x) kk
  | .ldReg x y   => wordOfNibbles 0x8 (nibbleOfReg x) (nibbleOfReg y) 0x0
  | .andReg x y  => wordOfNibbles 0x8 (nibbleOfReg x) (nibbleOfReg y) 0x2
  | .addReg x y  => wordOfNibbles 0x8 (nibbleOfReg x) (nibbleOfReg y) 0x4
  | .subReg x y  => wordOfNibbles 0x8 (nibbleOfReg x) (nibbleOfReg y) 0x5
  | .ldI nnn     => wordA 0xA nnn
  | .rnd x kk    => wordXK 0xC (nibbleOfReg x) kk
  | .drw x y n   => wordOfNibbles 0xD (nibbleOfReg x) (nibbleOfReg y) (nibbleOfReg n)
  | .skp x       => wordXK 0xE (nibbleOfReg x) 0x9E
  | .sknp x      => wordXK 0xE (nibbleOfReg x) 0xA1
  | .ldVxDt x    => wordXK 0xF (nibbleOfReg x) 0x07
  | .ldDtVx x    => wordXK 0xF (nibbleOfReg x) 0x15
  | .ldStVx x    => wordXK 0xF (nibbleOfReg x) 0x18
  | .ldF x       => wordXK 0xF (nibbleOfReg x) 0x29
  | .ldB x       => wordXK 0xF (nibbleOfReg x) 0x33
  | .ldVxI x     => wordXK 0xF (nibbleOfReg x) 0x65

/-- Decode a whole word: its two bytes, laid out big-endian (R31). -/
def decodeWord (w : Word) : Except DecodeReject Instr := decode (hiByte w) (loByte w)

/-- The word whose bits are numbered as spec/opcode_table.json numbers them. Every instruction is
one 16-bit word (R60), so a shorter `nbits` leaves the upper bits 0 (log 9). -/
def tableWord (nbits w : Nat) : Word := BitVec.ofNat 16 (w % 2 ^ nbits)

/-- What the decoder reads from the instruction whose bits are `w`, in the numbering of
spec/opcode_table.json. A table word longer than 16 bits is no instruction (R60). -/
def decodeTableWord (nbits w : Nat) : Option Instr :=
  if nbits ≤ 16 then
    match decodeWord (tableWord nbits w) with
    | .ok i => some i
    | .error _ => none
  else none

end Sys2Proof
end

