-- ==== Sys2Proof/Machine/Defaults.lean ====
section
/-! DEFINITION. The defaults the spec takes for its two open parameters (00_scope.md section 5). -/

namespace Sys2Proof.Machine

/-- The default of `FONT`: glyph `d` is the sprite of hexadecimal digit `d`, five rows, bit 7
leftmost (the table of R25). PRESUMED: the spec marks the byte values as general knowledge, not in
the source (D16; log 3). -/
def defaultFont : Font :=
  #v[#v[0xF0, 0x90, 0x90, 0x90, 0xF0],   -- 0
     #v[0x20, 0x60, 0x20, 0x20, 0x70],   -- 1
     #v[0xF0, 0x10, 0xF0, 0x80, 0xF0],   -- 2
     #v[0xF0, 0x10, 0xF0, 0x10, 0xF0],   -- 3
     #v[0x90, 0x90, 0xF0, 0x10, 0x10],   -- 4
     #v[0xF0, 0x80, 0xF0, 0x10, 0xF0],   -- 5
     #v[0xF0, 0x80, 0xF0, 0x90, 0xF0],   -- 6
     #v[0xF0, 0x10, 0x20, 0x40, 0x40],   -- 7
     #v[0xF0, 0x90, 0xF0, 0x90, 0xF0],   -- 8
     #v[0xF0, 0x90, 0xF0, 0x10, 0xF0],   -- 9
     #v[0xF0, 0x90, 0xF0, 0x90, 0x90],   -- A
     #v[0xE0, 0x90, 0xE0, 0x90, 0xE0],   -- B
     #v[0xF0, 0x80, 0x80, 0x80, 0xF0],   -- C
     #v[0xE0, 0x90, 0x90, 0x90, 0xE0],   -- D
     #v[0xF0, 0x80, 0xF0, 0x80, 0xF0],   -- E
     #v[0xF0, 0x80, 0xF0, 0x80, 0x80]]   -- F

/-- The default parameters: `TIMER_UNDERFLOW = saturate` (R133; log 4) and `defaultFont`. -/
def defaultConfig : Config where
  timerUnderflow := .saturate
  font := defaultFont

/-- What address `a` holds after `RESET` with `FONT = font`: `FONT[a]` in 0x000 to 0x04F, where
glyph `d` starts at `5 × d`, and 0x00 from there on (R25, R26). -/
def resetByte (font : Font) (a : Nat) : Byte :=
  if h : a < Config.fontSize then (font[a / Config.glyphBytes]'(by
    simp only [Config.fontSize, Config.glyphBytes] at *; omega))[a % Config.glyphBytes]'(by
    simp only [Config.glyphBytes]; omega)
  else 0x00

end Sys2Proof.Machine
end

