-- ==== Sys2Proof/Machine/State.lean ====
section
/-! DEFINITION. Everything the spec gives the machine (spec/10_state.md), as plain data, and the
state after `RESET` (R26, R140). -/

namespace Sys2Proof.Machine

/-- `Mem` (R20), as the list of the cells that differ from what an unlisted address reads as
(`background`, Machine/Ops.lean: the reset contents, R25, R26), addresses strictly rising. -/
structure Memory where
  cells : List Host.Cell
  deriving DecidableEq, Repr

/-- `Disp` (R22): 32 rows of 64 cells, `Disp[y][x]`, `true` is on. -/
abbrev Display := Vector (Vector Bool 64) 32

/-- The fault latch `ERR` (R19). -/
structure Err where
  valid : Bool
  code : BitVec 3
  opcode : Word
  pc : Word
  addr : Word
  deriving DecidableEq, Repr

/-- `ERR` with no error latched: "while `valid = 0` the other four fields … are 0" (R19). -/
def Err.none : Err := ⟨false, 0, 0, 0, 0⟩

/-- The whole state of the machine: the elements of R26, and the model's own counter `draws`. -/
structure State where
  /-- `V[0]` to `V[15]` (R10); `V[15]` is also the flag (R11). -/
  v : Vector Byte 16
  /-- The index register `I` (R12). -/
  i : Word
  /-- The program counter `PC` (R13). -/
  pc : Word
  /-- The call depth `SP + 1`, 0 to 16, held in place of `SP` as R16 allows (log 5). -/
  depth : Fin 17
  /-- `Stack[0]` to `Stack[15]` (R15). -/
  stack : Vector Word 16
  /-- The delay timer `DT` (R17). -/
  dt : Byte
  /-- The sound timer `ST` (R18). -/
  st : Byte
  /-- `Mem` (R20). -/
  mem : Memory
  /-- `Disp` (R22). -/
  disp : Display
  /-- `Key[0]` to `Key[15]` (R23). -/
  keys : Vector Bool 16
  /-- The fault latch `ERR` (R19). -/
  err : Err
  /-- The model's own: how many bytes `RandByte()` has supplied so far (R5; log 2). -/
  draws : Nat
  deriving DecidableEq, Repr

/-- `SP`, −1 to 15, where −1 is the empty stack (R16). -/
def State.sp (s : State) : Int := (s.depth.val : Int) - 1

/-- The machine right after `RESET` with the default parameters: every value from the table of R26;
memory lists nothing, so it reads as `FONT` and zeros. `draws = 0` is a DESIGN CHOICE (log 2). -/
def State.reset : State where
  v := Vector.replicate 16 0x00
  i := 0x0000
  pc := 0x0200
  depth := 0
  stack := Vector.replicate 16 0x0000
  dt := 0x00
  st := 0x00
  mem := ⟨[]⟩
  disp := Vector.replicate 32 (Vector.replicate 64 false)
  keys := Vector.replicate 16 false
  err := Err.none
  draws := 0

/-- The reasons for which a step of this machine stops outside the spec's own error latch. There are
none: a fatal error latches `ERR` and the step has a next state (R124, R127), and "every state has a
successor under every legal transaction" (spec/93_implementation_defined.md). Nobody raises a fault:
safe (log 6). -/
inductive Fault where
  deriving DecidableEq, Repr

/-- Why an instruction has no meaning in the model. -/
inductive Refusal where
  /-- Raised by an arm of `exec` whose instruction has no meaning yet, with its mnemonic. No arm does:
  all 22 instructions are modelled. Safe. -/
  | notModelled (mnemonic : String)
  deriving DecidableEq, Repr

end Sys2Proof.Machine
end

