-- ==== Sys2Proof/Machine/Ops.lean ====
section
/-! DEFINITION. The named operations over memory, registers, stack, display and keys, the access
checks (R32, R43), and raising a fatal error (R124), which is this machine's only exception. There
is no return from an error (R134): only `RESET` leaves the halted state. -/

namespace Sys2Proof.Machine

/-! ### Memory -/

/-- What an address that memory does not list reads as: the reset contents, `FONT` (the default
table) and zeros (R25, R26; log 3). -/
def background (a : Nat) : Byte := resetByte defaultFont a

/-- Look an address up in a list of cells with rising addresses. -/
def lookupCell (a : Nat) : List Host.Cell → Byte
  | [] => background a
  | (b, w) :: rest => if a < b then background a else if a = b then w else lookupCell a rest

/-- Put the byte `v` at `a` in a list of cells with rising addresses; the value an unlisted address
reads as is not listed. -/
def putCell (a : Nat) (v : Byte) : List Host.Cell → List Host.Cell
  | [] => if v = background a then [] else [(a, v)]
  | (b, w) :: rest =>
    if a < b then (if v = background a then (b, w) :: rest else (a, v) :: (b, w) :: rest)
    else if a = b then (if v = background a then rest else (a, v) :: rest)
    else (b, w) :: putCell a v rest

/-- `Mem[a]` (R20), for `a` inside memory; every use stands behind a range check. -/
def Memory.read (m : Memory) (a : Nat) : Byte := lookupCell a m.cells

/-- `Mem[a] <- v` (R20), with no floor check. There is no byte above 0xFFF to write (R37; log 7). -/
def Memory.write (m : Memory) (a : Nat) (v : Byte) : Memory :=
  if a < Config.memSize then ⟨putCell a v m.cells⟩ else m

/-- `bytes[j]` to `Mem[a + j]` for every `j`, ascending (R143). -/
def Memory.writeList (m : Memory) (a : Nat) : List Byte → Memory
  | [] => m
  | b :: bs => (m.write a b).writeList (a + 1) bs

/-- The cell lies above `lo`, inside memory, and holds something else than the reset contents; so
does every cell after it. -/
def cellsWf (lo : Nat) : List Host.Cell → Bool
  | [] => true
  | (b, w) :: rest =>
    decide (lo ≤ b) && decide (b < Config.memSize) && decide (w ≠ background b) && cellsWf (b + 1) rest

/-- The canonical form: addresses strictly rising, inside memory, no cell equal to what its address
reads as unlisted. Equal memories are then equal lists. -/
def Memory.wf (m : Memory) : Bool := cellsWf 0 m.cells

/-! ### Registers, stack, display, keys -/

/-- `V[r]` (R10). -/
def State.getV (s : State) (r : Reg) : Byte := s.v[r]

/-- `V[r] <- b` (R10). -/
def State.setV (s : State) (r : Reg) (b : Byte) : State := { s with v := s.v.set r b }

/-- `V[15]`, the flag register (R11). -/
def vf : Reg := 15

/-- `PC <- a`. -/
def State.setPc (s : State) (a : Word) : State := { s with pc := a }

/-- `I <- a` (R12). -/
def State.setI (s : State) (a : Word) : State := { s with i := a }

/-- `DT <- b` (R17). -/
def State.setDt (s : State) (b : Byte) : State := { s with dt := b }

/-- `ST <- b` (R18). -/
def State.setSt (s : State) (b : Byte) : State := { s with st := b }

/-- `Mem[a] <- b`. -/
def State.setMem (s : State) (a : Nat) (b : Byte) : State := { s with mem := s.mem.write a b }

/-- `Stack[k]` (R15). -/
def State.getStack (s : State) (k : Fin 16) : Word := s.stack[k]

/-- `Disp[y][x]` (R22). -/
def Display.get (d : Display) (y : Fin 32) (x : Fin 64) : Bool := d[y][x]

/-- `Disp[y][x] <- not Disp[y][x]` (R100). -/
def Display.toggle (d : Display) (y : Fin 32) (x : Fin 64) : Display :=
  d.set y (d[y].set x (!d[y][x]))

/-- `Key[k]` (R23). -/
def State.getKey (s : State) (k : Fin 16) : Bool := s.keys[k]

/-- `npc`, the address of the next sequential instruction: `PC + 2`, a 16-bit sum that never
overflows after a successful fetch (R52, R14). -/
def State.npc (s : State) : Word := s.pc + 2

/-- End of an instruction that does not name `PC`: `PC <- npc` (R52). -/
def State.advance (s : State) : State := s.setPc s.npc

/-- "Skip next instruction": `PC <- npc + 2` if the condition holds, else `PC <- npc` (R76). -/
def State.skipIf (s : State) (cond : Bool) : State := s.setPc (if cond then s.npc + 2 else s.npc)

/-- `SP <- SP + 1; Stack[SP] <- a`, when there is room (R72). -/
def State.push (s : State) (_h : s.depth.val < 16) (a : Word) : State :=
  { s with depth := ⟨s.depth.val + 1, by omega⟩, stack := s.stack.set s.depth.val a }

/-- `Stack[SP]`, when the stack is not empty (R70). -/
def State.top (s : State) (_h : s.depth.val ≠ 0) : Word := s.stack[s.depth.val - 1]'(by omega)

/-- `SP <- SP - 1`; the popped entry is not cleared (R70, R15). -/
def State.pop (s : State) : State := { s with depth := ⟨s.depth.val - 1, by omega⟩ }

/-- `RandByte()`: the next free byte, and the state in which the source has moved on by one (R5). -/
def State.randByte (s : State) : Byte × State :=
  (Config.randByte s.draws, { s with draws := s.draws + 1 })

/-! ### Fatal errors -/

/-- The six kinds of fatal error (R120). -/
inductive ErrKind where
  | unimplementedOpcode
  | stackOverflow
  | stackUnderflow
  | memoryOutOfBounds
  | keyIndexOutOfBounds
  | reservedRegionWrite
  deriving DecidableEq, Repr

/-- `ERR.code` of each kind; 0 stands for no error (R120). -/
def ErrKind.code : ErrKind → BitVec 3
  | .unimplementedOpcode => 1
  | .stackOverflow => 2
  | .stackUnderflow => 3
  | .memoryOutOfBounds => 4
  | .keyIndexOutOfBounds => 5
  | .reservedRegionWrite => 6

/-- `raise E(opcode, pc0, addr)`: every element keeps the value it had before the `STEP`, `PC`
included, and `ERR` records the error with `pc0 = PC` (R124). -/
def raise (e : ErrKind) (opcode : Word) (addr : Nat) (s : State) : State :=
  { s with err := ⟨true, e.code, opcode, s.pc, BitVec.ofNat 16 addr⟩ }

/-- The machine is halted: an error is latched (R127). -/
def State.halted (s : State) : Bool := s.err.valid

/-- Raising an error ends the instruction: the machine has a next state (R124). -/
def raised (e : ErrKind) (opcode : Word) (addr : Nat) (s : State) :
    Host.Outcome State Fault Refusal := .next (raise e opcode addr s)

/-! ### Access checks -/

/-- What an instruction does at the addresses it reaches: `CheckRange`'s `write` argument (R43). -/
inductive Access where
  | read
  | write
  deriving DecidableEq, Repr

/-- `CheckRange(I, k, write)` of R43, over the addresses `a` to `a + k` as exact integers: the error
and its `addr` field, or nothing. With `k = 0` it is the check of `MemRead(a, 1)` (R33) and of
`MemWrite(a, 1, v)` (R34). -/
def checkRange (a k : Nat) (acc : Access) : Option (ErrKind × Nat) :=
  if acc = .write ∧ a < Config.progBase then some (.reservedRegionWrite, a)
  else if a + k > 0xFFF then some (.memoryOutOfBounds, max a 0x1000)
  else none

/-- An instruction whose access is checked as a whole before anything changes (R43): the error of
the check, or the state the instruction leaves. -/
def checked (opcode : Word) (check : Option (ErrKind × Nat)) (s : State) (done : State) :
    Host.Outcome State Fault Refusal :=
  match check with
  | some (e, addr) => raised e opcode addr s
  | none => .next done

/-- `Fetch(a)` of R32: the two bytes at `a` and `a + 1`, or the out-of-range address the fault
records. -/
def fetch (m : Memory) (a : Nat) : Except Nat (Byte × Byte) :=
  if a > 0xFFE then .error (max a 0x1000) else .ok (m.read a, m.read (a + 1))

/-- Put an instruction word at `a`, big-endian (R31). -/
def Memory.writeWord (m : Memory) (a : Nat) (w : Word) : Memory :=
  (m.write a (hiByte w)).write (a + 1) (loByte w)

end Sys2Proof.Machine
end

