-- ==== Sys2Proof/Machine/Flags.lean ====
section
/-! DEFINITION. The three flag computations (R11): carry, not-borrow, collision. Each decides the
value of `V[15]` from exact integers or from the pixels turned off. -/

namespace Sys2Proof.Machine

/-- A flag as a register value: 1 or 0 (R11). -/
def flagByte (b : Bool) : Byte := if b then 1 else 0

/-- The carry of `ADD Vx, Vy`: the exact sum is 256 or more (R84). -/
def carry (a b : Byte) : Bool := decide (a.toNat + b.toNat ≥ 256)

/-- The not-borrow of `SUB Vx, Vy`: the exact difference is not negative (R85). -/
def notBorrow (a b : Byte) : Bool := decide (¬ ((a.toNat : Int) - (b.toNat : Int) < 0))

/-- The exact sum, reduced modulo 256 (R84, R87). -/
def sumByte (a b : Byte) : Byte := BitVec.ofNat 8 (a.toNat + b.toNat)

/-- The exact difference, reduced modulo 256 (R85, R87). -/
def diffByte (a b : Byte) : Byte := BitVec.ofInt 8 ((a.toNat : Int) - (b.toNat : Int))

/-- "The flag is written first and the result second" (R87): with `x = 15` the result remains. -/
def State.setFlagThenResult (s : State) (flag : Bool) (x : Reg) (result : Byte) : State :=
  (s.setV vf (flagByte flag)).setV x result

/-- The collision seen so far, after a pixel that was `old` has been toggled: a pixel that was on
went off (R104). -/
def collides (soFar old : Bool) : Bool := soFar || old

end Sys2Proof.Machine
end

