-- ==== Sys2Proof/Machine/Alu.lean ====
section
/-! DEFINITION. Register load, arithmetic, logic, random (spec/41_load_alu.md). Every instruction
here ends with `PC <- npc` and raises nothing. -/

namespace Sys2Proof.Machine

/-- `LD Vx, kk` (R80). -/
def execLdImm (x : Reg) (kk : Byte) (s : State) : Host.Outcome State Fault Refusal :=
  .next (s.setV x kk).advance

/-- `ADD Vx, kk` (R81): no flag. -/
def execAddImm (x : Reg) (kk : Byte) (s : State) : Host.Outcome State Fault Refusal :=
  .next (s.setV x (sumByte (s.getV x) kk)).advance

/-- `LD Vx, Vy` (R82). -/
def execLdReg (x y : Reg) (s : State) : Host.Outcome State Fault Refusal :=
  .next (s.setV x (s.getV y)).advance

/-- `AND Vx, Vy` (R83): no flag. -/
def execAndReg (x y : Reg) (s : State) : Host.Outcome State Fault Refusal :=
  .next (s.setV x (s.getV x &&& s.getV y)).advance

/-- `ADD Vx, Vy` (R84): both read first, then the carry, then the sum. -/
def execAddReg (x y : Reg) (s : State) : Host.Outcome State Fault Refusal :=
  let a := s.getV x
  let b := s.getV y
  .next (s.setFlagThenResult (carry a b) x (sumByte a b)).advance

/-- `SUB Vx, Vy` (R85): both read first, then the not-borrow, then the difference. -/
def execSubReg (x y : Reg) (s : State) : Host.Outcome State Fault Refusal :=
  let a := s.getV x
  let b := s.getV y
  .next (s.setFlagThenResult (notBorrow a b) x (diffByte a b)).advance

/-- `RND Vx, kk` (R86): one call of `RandByte()`, whatever `kk` is. -/
def execRnd (x : Reg) (kk : Byte) (s : State) : Host.Outcome State Fault Refusal :=
  .next (s.randByte.2.setV x (s.randByte.1 &&& kk)).advance

end Sys2Proof.Machine
end

