-- ==== Sys2Proof/Machine/Operands.lean ====
section
/-! DEFINITION. The operand forms (R54, R94, R101, R102): the only ones there are. -/

namespace Sys2Proof.Machine

/-- `zext_16(nnn)`: an address operand as a value of `PC` or `I` (R54). -/
def addrOperand (nnn : Addr) : Word := nnn.setWidth 16

/-- The effective address `I + j` of a data access, an exact integer (R94). -/
def State.effAddr (s : State) (j : Nat) : Nat := s.i.toNat + j

/-- The key slot that a register's value names, if it names one (R110, R111). -/
def keyOperand (b : Byte) : Option (Fin 16) :=
  if h : b.toNat < 16 then some ⟨b.toNat, h⟩ else none

/-- The font glyph base address `V[x] × 5`, exact (R91). -/
def glyphAddr (b : Byte) : Word := BitVec.ofNat 16 (b.toNat * 5)

/-- The hundreds digit of a byte (R92). -/
def hundreds (b : Byte) : Byte := BitVec.ofNat 8 (b.toNat / 100)

/-- The tens digit of a byte (R92). -/
def tens (b : Byte) : Byte := BitVec.ofNat 8 (b.toNat / 10 % 10)

/-- The ones digit of a byte (R92). -/
def ones (b : Byte) : Byte := BitVec.ofNat 8 (b.toNat % 10)

/-- Column `col` of a sprite row: bit `7 − col`, so that bit 7 is the leftmost column (R101). -/
def spriteBit (bits : Byte) (col : Nat) : Bool := bits.getLsbD (7 - col)

end Sys2Proof.Machine
end

