-- ==== Sys2Proof/Machine/Control.lean ====
section
/-! DEFINITION. Control transfer: `RET`, `JP`, `CALL`, `SE`, `SNE` (spec/40_control_flow.md). -/

namespace Sys2Proof.Machine

/-- `RET` (R70). -/
def execRet (ignored : Nibble) (s : State) : Host.Outcome State Fault Refusal :=
  if h : s.depth.val = 0 then raised .stackUnderflow (encode (.ret ignored)) 0 s
  else .next (s.pop.setPc (s.top h))

/-- `JP nnn` (R71). -/
def execJp (nnn : Addr) (s : State) : Host.Outcome State Fault Refusal :=
  .next (s.setPc (addrOperand nnn))

/-- `CALL nnn` (R72). -/
def execCall (nnn : Addr) (s : State) : Host.Outcome State Fault Refusal :=
  if h : s.depth.val < 16 then .next ((s.push h s.npc).setPc (addrOperand nnn))
  else raised .stackOverflow (encode (.call nnn)) 0 s

/-- `SE Vx, kk` (R73). -/
def execSe (x : Reg) (kk : Byte) (s : State) : Host.Outcome State Fault Refusal :=
  .next (s.skipIf (s.getV x == kk))

/-- `SNE Vx, kk` (R74). -/
def execSne (x : Reg) (kk : Byte) (s : State) : Host.Outcome State Fault Refusal :=
  .next (s.skipIf (s.getV x != kk))

end Sys2Proof.Machine
end

