-- ==== Sys2Proof/Machine/Draw.lean ====
section
/-! DEFINITION. The sprite engine: `DRW Vx, Vy, n` (spec/43_draw.md). -/

namespace Sys2Proof.Machine

/-- What a draw has produced so far: the display, and whether a pixel went from on to off (R104). -/
structure Canvas where
  disp : Display
  collision : Bool
  deriving DecidableEq, Repr

/-- Toggle the pixel at column `px`, row `py` if it lies inside the grid; a pixel outside is skipped,
not wrapped (R103). A pixel that was on is a collision (R104). -/
def drawPixel (px py : Nat) (c : Canvas) : Canvas :=
  if h : px < 64 ∧ py < 32 then
    ⟨c.disp.toggle ⟨py, h.2⟩ ⟨px, h.1⟩, collides c.collision (c.disp.get ⟨py, h.2⟩ ⟨px, h.1⟩)⟩
  else c

/-- The first `cols` columns of one sprite row at `(X, py)`, ascending: a set bit toggles, a 0 bit
leaves its pixel (R101). Column sums are exact integers (R102). -/
def drawCols (bits : Byte) (X py : Nat) (c : Canvas) : Nat → Canvas
  | 0 => c
  | col + 1 =>
    let c' := drawCols bits X py c col
    if spriteBit bits col then drawPixel (X + col) py c' else c'

/-- The first `rows` rows of the sprite at `(X, Y)`, ascending; row `r` is the byte at `I + r`, eight
columns wide (R100, R101). -/
def drawRows (s : State) (X Y : Nat) : Nat → Canvas
  | 0 => ⟨s.disp, false⟩
  | r + 1 => drawCols (s.mem.read (s.effAddr r)) X (Y + r) (drawRows s X Y r) 8

/-- The check of R100: none for `n = 0` (R105), else the whole sprite inside memory, clipped rows
included (R103). -/
def checkSprite (s : State) (n : Nat) : Option (ErrKind × Nat) :=
  if n = 0 then none else checkRange (s.effAddr 0) (n - 1) .read

/-- The state a draw leaves: the display, and `V[15]` the collision flag of the whole sprite (R104). -/
def finishDraw (c : Canvas) (s : State) : State :=
  { s with disp := c.disp }.setV vf (flagByte c.collision)

/-- `DRW Vx, Vy, n` (R100): the coordinates are read before `V[15]` is written (R102). -/
def execDrw (x y : Reg) (n : Fin 16) (s : State) : Host.Outcome State Fault Refusal :=
  checked (encode (.drw x y n)) (checkSprite s n.val) s
    (finishDraw (drawRows s (s.getV x).toNat (s.getV y).toNat n.val) s).advance

end Sys2Proof.Machine
end

