-- ==== Sys2Proof/Machine/IndexMem.lean ====
section
/-! DEFINITION. Index register and memory: `LD I, nnn`, `LD F, Vx`, `LD B, Vx`, `LD Vx, [I]`
(spec/42_index_memory.md). None of them changes `I` as a side effect (R94). -/

namespace Sys2Proof.Machine

/-- `LD I, nnn` (R90). -/
def execLdI (nnn : Addr) (s : State) : Host.Outcome State Fault Refusal :=
  .next (s.setI (addrOperand nnn)).advance

/-- `LD F, Vx` (R91). -/
def execLdF (x : Reg) (s : State) : Host.Outcome State Fault Refusal :=
  .next (s.setI (glyphAddr (s.getV x))).advance

/-- The three stores of `LD B, Vx`, in ascending address order (R92). -/
def storeDigits (b : Byte) (s : State) : State :=
  ((s.setMem (s.effAddr 0) (hundreds b)).setMem (s.effAddr 1) (tens b)).setMem (s.effAddr 2) (ones b)

/-- `LD B, Vx` (R92). -/
def execLdB (x : Reg) (s : State) : Host.Outcome State Fault Refusal :=
  checked (encode (.ldB x)) (checkRange (s.effAddr 0) 2 .write) s (storeDigits (s.getV x) s).advance

/-- `V[j] <- MemRead(I + j, 1)` for `j` from 0, `count` registers, ascending (R93). -/
def loadRegs (s : State) : Nat → State
  | 0 => s
  | j + 1 => (loadRegs s j).setV (Fin.ofNat 16 j) (s.mem.read (s.effAddr j))

/-- `LD Vx, [I]` (R93): `x + 1` registers. -/
def execLdVxI (x : Reg) (s : State) : Host.Outcome State Fault Refusal :=
  checked (encode (.ldVxI x)) (checkRange (s.effAddr 0) x.val .read) s (loadRegs s (x.val + 1)).advance

end Sys2Proof.Machine
end

