-- ==== Sys2Proof/Machine/KeypadTimers.lean ====
section
/-! DEFINITION. Keypad and timer instructions (spec/44_keypad_timers.md). -/

namespace Sys2Proof.Machine

/-- A skip on the state of the key that `V[x]` names, taken when the key's state is `pressed`; a
value above 15 raises `KeyIndexOutOfBounds` with `addr = V[x]` (R110, R111, R128). -/
def skipOnKey (opcode : Word) (x : Reg) (pressed : Bool) (s : State) :
    Host.Outcome State Fault Refusal :=
  match keyOperand (s.getV x) with
  | some k => .next (s.skipIf (s.getKey k == pressed))
  | none => raised .keyIndexOutOfBounds opcode (s.getV x).toNat s

/-- `SKP Vx` (R110). -/
def execSkp (x : Reg) (s : State) : Host.Outcome State Fault Refusal :=
  skipOnKey (encode (.skp x)) x true s

/-- `SKNP Vx` (R111). -/
def execSknp (x : Reg) (s : State) : Host.Outcome State Fault Refusal :=
  skipOnKey (encode (.sknp x)) x false s

/-- `LD Vx, DT` (R112). -/
def execLdVxDt (x : Reg) (s : State) : Host.Outcome State Fault Refusal :=
  .next (s.setV x s.dt).advance

/-- `LD DT, Vx` (R113). -/
def execLdDtVx (x : Reg) (s : State) : Host.Outcome State Fault Refusal :=
  .next (s.setDt (s.getV x)).advance

/-- `LD ST, Vx` (R114). -/
def execLdStVx (x : Reg) (s : State) : Host.Outcome State Fault Refusal :=
  .next (s.setSt (s.getV x)).advance

end Sys2Proof.Machine
end

