-- ==== Sys2Proof/Machine/Step.lean ====
section
/-! DEFINITION. The `STEP` transaction (R52), and placing an instruction where the next `STEP`
fetches it. -/

namespace Sys2Proof.Machine

/-- `STEP`: halt check, fetch, decode and selection, then the instruction (R52), in the priority of
R129. A halted machine does nothing (R127); a fetch past memory and an unimplemented word latch
their errors (R32, R121). -/
def step (s : State) : Host.Outcome State Fault Refusal :=
  if s.halted then .next s
  else
    match fetch s.mem s.pc.toNat with
    | .error addr => raised .memoryOutOfBounds 0x0000 addr s
    | .ok (b1, b2) =>
      match decode b1 b2 with
      | .error (.unimplementedOpcode w) => raised .unimplementedOpcode w 0 s
      | .ok i => exec i s

/-- `s` with the instruction word `w` (numbered as spec/opcode_table.json numbers it) big-endian at
the address the next `STEP` fetches from. What that `STEP` needs beside the bytes is given too: no
latched error, and a `PC` at which two bytes exist (0x200 in place of one past 0xFFE). In the reset
state neither changes (log 8). -/
def State.withFetchWord (s : State) (nbits w : Nat) : State :=
  let pc := if s.pc.toNat ≤ 0xFFE then s.pc else 0x0200
  { s with pc := pc, err := Err.none, mem := s.mem.writeWord pc.toNat (tableWord nbits w) }

end Sys2Proof.Machine
end

