-- ==== Sys2Proof/Machine/Listing.lean ====
section
/-! DEFINITION. The assembler syntax of the spec's listings (R61): how each instruction is spelled, and the
bytes a listing stands for. No part of the machine's step reads it. -/

namespace Sys2Proof.Machine

/-- The literal operand names that select an instruction (R61). -/
inductive OperandName where
  /-- `I` -/
  | index
  /-- `DT` -/
  | delayTimer
  /-- `ST` -/
  | soundTimer
  /-- `F`, the font address -/
  | font
  /-- `B`, the BCD store -/
  | bcd
  /-- `[I]`, memory at `I` -/
  | atIndex
  deriving DecidableEq, Repr

/-- An operand of an assembly line: a register, a numeral (decimal or hexadecimal, the same number), or a
literal name (R61; log 13). -/
inductive AsmOperand where
  | reg (r : Reg)
  | num (n : Nat)
  | name (o : OperandName)
  deriving DecidableEq, Repr

/-- An assembly line: the mnemonic and its operands, the destination first (R61). -/
structure AsmLine where
  mnemonic : String
  operands : List AsmOperand
  deriving DecidableEq, Repr

/-- How an instruction is spelled (R55, R61). `RET` has one spelling for its 16 words (R56). -/
def assembly : Instr → AsmLine
  | .ret _       => ⟨"RET", []⟩
  | .jp nnn      => ⟨"JP", [.num nnn.toNat]⟩
  | .call nnn    => ⟨"CALL", [.num nnn.toNat]⟩
  | .se x kk     => ⟨"SE", [.reg x, .num kk.toNat]⟩
  | .sne x kk    => ⟨"SNE", [.reg x, .num kk.toNat]⟩
  | .ldImm x kk  => ⟨"LD", [.reg x, .num kk.toNat]⟩
  | .addImm x kk => ⟨"ADD", [.reg x, .num kk.toNat]⟩
  | .ldReg x y   => ⟨"LD", [.reg x, .reg y]⟩
  | .andReg x y  => ⟨"AND", [.reg x, .reg y]⟩
  | .addReg x y  => ⟨"ADD", [.reg x, .reg y]⟩
  | .subReg x y  => ⟨"SUB", [.reg x, .reg y]⟩
  | .ldI nnn     => ⟨"LD", [.name .index, .num nnn.toNat]⟩
  | .rnd x kk    => ⟨"RND", [.reg x, .num kk.toNat]⟩
  | .drw x y n   => ⟨"DRW", [.reg x, .reg y, .num n.val]⟩
  | .skp x       => ⟨"SKP", [.reg x]⟩
  | .sknp x      => ⟨"SKNP", [.reg x]⟩
  | .ldVxDt x    => ⟨"LD", [.reg x, .name .delayTimer]⟩
  | .ldDtVx x    => ⟨"LD", [.name .delayTimer, .reg x]⟩
  | .ldStVx x    => ⟨"LD", [.name .soundTimer, .reg x]⟩
  | .ldF x       => ⟨"LD", [.name .font, .reg x]⟩
  | .ldB x       => ⟨"LD", [.name .bcd, .reg x]⟩
  | .ldVxI x     => ⟨"LD", [.reg x, .name .atIndex]⟩

/-- A line of a listing: an instruction, or one of the two data directives (R61). -/
inductive ListingLine where
  | instr (i : Instr)
  /-- `DB b, b, …` -/
  | db (bytes : List Byte)
  /-- `DW w` -/
  | dw (w : Word)
  deriving DecidableEq, Repr

/-- A 16-bit word as the two bytes it is placed as, big-endian (R31, R61). -/
def wordBytes (w : Word) : List Byte := [hiByte w, loByte w]

/-- The bytes a line places: one instruction is one word, no mnemonic expands to more (R61). -/
def ListingLine.bytes : ListingLine → List Byte
  | .instr i => wordBytes (encode i)
  | .db bytes => bytes
  | .dw w => wordBytes w

/-- The image a listing stands for, its lines in order: what `LOAD` takes (R61, R143). -/
def image (listing : List ListingLine) : List Byte := listing.flatMap ListingLine.bytes

end Sys2Proof.Machine
end

