-- ==== Sys2Proof/Machine/Transactions.lean ====
section
/-! DEFINITION. The other transactions at the machine's boundary (R1): `RESET`, `TICK`, `LOAD`,
`KEY_SET`, and histories, which are any sequences of transactions (R2, R3; log 1). -/

namespace Sys2Proof.Machine

/-- The state `RESET` leaves with the parameters `c` (R140, R26): the reset state, with `FONT` at
0x000 to 0x04F. -/
def resetWith (c : Config) : State :=
  { State.reset with
      mem := (State.reset.mem).writeList 0 ((List.range Config.fontSize).map (resetByte c.font)) }

/-- `RESET` at any time (R140): nothing survives it. The random source is outside the machine and is
not reseeded, so the model's counter of its bytes goes on. -/
def reset (c : Config) (s : State) : State := { resetWith c with draws := s.draws }

/-- `Dec(t)` (R132), with the parameter `TIMER_UNDERFLOW` at 0 (R133). -/
def decTimer (c : Config) (t : Byte) : Byte :=
  if t = 0 then
    match c.timerUnderflow with
    | .saturate => 0
    | .wrap => 255
  else t - 1

/-- `TICK` (R132): both timers down once; nothing while halted (R127). -/
def tick (c : Config) (s : State) : State :=
  if s.halted then s else { s with dt := decTimer c s.dt, st := decTimer c s.st }

/-- What `LOAD` reports to the environment (R143). -/
inductive LoadResult where
  | ok
  | loadTooLarge
  deriving DecidableEq, Repr

/-- `LOAD(bytes)` (R143): the image at 0x200, or, when it is too long, nothing written and
`LoadTooLarge`. It acts while halted too (R127). -/
def load (bytes : List Byte) (s : State) : State × LoadResult :=
  if imageWellFormed bytes then
    ({ s with mem := s.mem.writeList Config.progBase bytes }, .ok)
  else (s, .loadTooLarge)

/-- `KEY_SET(k, b)` (R115). It acts while halted too (R127). -/
def keySet (k : Fin 16) (b : Bool) (s : State) : State := { s with keys := s.keys.set k b }

/-- The five transactions (R1). -/
inductive Transaction where
  | reset
  | step
  | tick
  | load (bytes : List Byte)
  | keySet (k : Fin 16) (b : Bool)
  deriving DecidableEq, Repr

/-- One transaction takes the whole state before it to the whole state after it (R2). -/
def transact (c : Config) (t : Transaction) (s : State) : Host.Outcome State Fault Refusal :=
  match t with
  | .reset => .next (reset c s)
  | .step => step s
  | .tick => .next (tick c s)
  | .load bytes => .next (load bytes s).1
  | .keySet k b => .next (keySet k b s)

/-- A history: transactions one after another (R2, R3). -/
def history (c : Config) : List Transaction → State → Host.Outcome State Fault Refusal
  | [], s => .next s
  | t :: ts, s =>
    match transact c t s with
    | .next s' => history c ts s'
    | .fault r => .fault r
    | .refused r => .refused r

end Sys2Proof.Machine
end

