-- ==== Sys2Proof/Safety.lean ====
section
/-! DEFINITION. The terms the claims use: one name for every element of state, what it means that
only some of them change, a machine that runs, the invariant of R28, the states a history reaches,
and the pixels a sprite covers. -/

namespace Sys2Proof.Machine

/-- Every single element of state: the table of R26, cell by cell, and the model's own `draws`. -/
inductive Element where
  | v (r : Reg)
  | i
  | pc
  | sp
  | stack (k : Fin 16)
  | dt
  | st
  | mem (a : Nat)
  | disp (y : Fin 32) (x : Fin 64)
  | key (k : Fin 16)
  | err
  | draws
  deriving DecidableEq, Repr

/-- The element holds in `t` what it held in `s`. -/
def Element.same (s t : State) : Element → Prop
  | .v r => t.getV r = s.getV r
  | .i => t.i = s.i
  | .pc => t.pc = s.pc
  | .sp => t.depth = s.depth
  | .stack k => t.getStack k = s.getStack k
  | .dt => t.dt = s.dt
  | .st => t.st = s.st
  | .mem a => t.mem.read a = s.mem.read a
  | .disp y x => t.disp.get y x = s.disp.get y x
  | .key k => t.getKey k = s.getKey k
  | .err => t.err = s.err
  | .draws => t.draws = s.draws

/-- Between `s` and `t` every element outside `written` is unchanged: the frame of an instruction or
a transaction. -/
def OnlyChanges (written : Element → Prop) (s t : State) : Prop :=
  ∀ e, ¬ written e → e.same s t

/-- No fatal error is latched (R127). -/
def Running (s : State) : Prop := s.err.valid = false

/-- What R28 and R19 say of every reachable state of a machine with the parameters `c`. The bounds on
`SP` hold by the type of `State.depth`. -/
structure Inv (c : Config) (s : State) : Prop where
  /-- `I ≤ 0xFFF` (R12). -/
  index : s.i.toNat ≤ 0xFFF
  /-- `PC ≤ 0x1002` (R14). -/
  counter : s.pc.toNat ≤ 0x1002
  /-- Every stack entry is at most 0x1000 (R28). -/
  entries : ∀ k, (s.getStack k).toNat ≤ 0x1000
  /-- The reserved region equals its reset value (R21). -/
  reserved : ∀ a, a < 0x200 → s.mem.read a = resetByte c.font a
  /-- `ERR`'s other fields are 0 while nothing is latched (R19). -/
  quiet : s.err.valid = false → s.err = Err.none
  /-- A latched error has one of the six codes and names the address `PC` holds (R120, R124). -/
  latched : s.err.valid = true → (∃ e : ErrKind, s.err.code = e.code) ∧ s.err.pc = s.pc
  /-- Memory is in its canonical form. -/
  canonical : s.mem.wf = true

/-- The states that histories reach from `RESET` (R28). -/
inductive Reachable (c : Config) : State → Prop where
  | reset : Reachable c (resetWith c)
  | next {s t : State} (tr : Transaction) :
      Reachable c s → transact c tr s = .next t → Reachable c t

/-- A set bit of the `n`-row sprite at `I`, drawn with its top left corner at column `X`, row `Y`,
lands on the display cell in row `py`, column `px` (R101, R102, R103). -/
def Covers (s : State) (X Y n : Nat) (py : Fin 32) (px : Fin 64) : Prop :=
  ∃ row col : Nat, row < n ∧ col < 8 ∧ spriteBit (s.mem.read (s.effAddr row)) col = true ∧
    px.val = X + col ∧ py.val = Y + row

/-- All `n` sprite bytes, or `n` data bytes, from `I` lie inside memory (R43, R100). -/
def InsideMemory (s : State) (n : Nat) : Prop := s.effAddr 0 + n ≤ 0x1000

/-- The two bytes at `PC` exist and decode to the instruction `i` (R32, R50, R53). -/
def Fetches (s : State) (i : Instr) : Prop :=
  s.pc.toNat ≤ 0xFFE ∧ decode (s.mem.read s.pc.toNat) (s.mem.read (s.pc.toNat + 1)) = .ok i

/-- The instructions whose meaning raises an error of this kind (the "raised by" column of R120). No
instruction raises `UnimplementedOpcode`: decoding does. -/
def ErrKind.RaisedBy : ErrKind → Instr → Prop
  | .unimplementedOpcode, _ => False
  | .stackOverflow, i => ∃ nnn, i = .call nnn
  | .stackUnderflow, i => ∃ ign, i = .ret ign
  | .memoryOutOfBounds, i => (∃ x y n, i = .drw x y n) ∨ (∃ x, i = .ldB x) ∨ ∃ x, i = .ldVxI x
  | .keyIndexOutOfBounds, i => ∃ x, i = .skp x ∨ i = .sknp x
  | .reservedRegionWrite, i => ∃ x, i = .ldB x

/-- Instructions carried out one after another, with nothing else between them. -/
def execAll : List Instr → State → Host.Outcome State Fault Refusal
  | [], s => .next s
  | i :: is, s =>
    match exec i s with
    | .next s' => execAll is s'
    | .fault r => .fault r
    | .refused r => .refused r

end Sys2Proof.Machine
end

