-- ==== Sys2Proof/Certificates/Slice0/Obligations.lean ====
section
/-! DEFINITION. The statements about this machine, for the provers. A statement about a next state
names what the instruction writes and, with `OnlyChanges`, says that every other element is as it
was: every register, `I`, `PC`, `SP`, every stack entry, both timers, every byte of memory, every
pixel, every key, `ERR`, and the model's own counter `draws` (log 2), which no rule of the spec
names. -/

open Sys2Proof Sys2Proof.Machine

/-! ## Encoding and decoding -/

/-- One word of every implemented family, written out from the patterns of R55, decodes to its
instruction, and three words outside the opcode map are rejected by name; vectors of
spec/95_test_vectors.md are among them. -/
def Obligations.SampleWordsDecode : Prop :=
  decode 0x00 0xEE = .ok (.ret 0) ∧ decode 0x12 0x0E = .ok (.jp 0x20E) ∧
  decode 0x23 0x00 = .ok (.call 0x300) ∧ decode 0x31 0x05 = .ok (.se 1 0x05) ∧
  decode 0x41 0x05 = .ok (.sne 1 0x05) ∧ decode 0x60 0x05 = .ok (.ldImm 0 0x05) ∧
  decode 0x70 0x03 = .ok (.addImm 0 0x03) ∧
  decode 0x80 0x14 = .ok (.addReg 0 1) ∧ decode 0xA2 0x0E = .ok (.ldI 0x20E) ∧
  decode 0xC2 0x0F = .ok (.rnd 2 0x0F) ∧ decode 0xD1 0x25 = .ok (.drw 1 2 5) ∧
  decode 0xE2 0xA1 = .ok (.sknp 2) ∧ decode 0xF2 0x65 = .ok (.ldVxI 2) ∧
  decode 0x0E 0x12 = .error (.unimplementedOpcode 0x0E12) ∧
  decode 0x80 0x18 = .error (.unimplementedOpcode 0x8018) ∧
  decode 0xF2 0x66 = .error (.unimplementedOpcode 0xF266)

/-- The number each instruction is encoded as, straight from the patterns of the opcode map (R55) and
the bit positions of its formats (R51). That `RET` keeps the ignored nibble is the model's reading of
D14. -/
def Obligations.EncodedWordsFollowPatterns : Prop :=
  ∀ (ign : Nibble) (nnn : Addr) (kk : Byte) (x y n : Fin 16),
    (encode (.ret ign)).toNat = 0x00EE + 0x100 * ign.toNat ∧
    (encode (.jp nnn)).toNat = 0x1000 + nnn.toNat ∧
    (encode (.call nnn)).toNat = 0x2000 + nnn.toNat ∧
    (encode (.se x kk)).toNat = 0x3000 + 0x100 * x.val + kk.toNat ∧
    (encode (.sne x kk)).toNat = 0x4000 + 0x100 * x.val + kk.toNat ∧
    (encode (.ldImm x kk)).toNat = 0x6000 + 0x100 * x.val + kk.toNat ∧
    (encode (.addImm x kk)).toNat = 0x7000 + 0x100 * x.val + kk.toNat ∧
    (encode (.ldReg x y)).toNat = 0x8000 + 0x100 * x.val + 0x10 * y.val ∧
    (encode (.andReg x y)).toNat = 0x8002 + 0x100 * x.val + 0x10 * y.val ∧
    (encode (.addReg x y)).toNat = 0x8004 + 0x100 * x.val + 0x10 * y.val ∧
    (encode (.subReg x y)).toNat = 0x8005 + 0x100 * x.val + 0x10 * y.val ∧
    (encode (.ldI nnn)).toNat = 0xA000 + nnn.toNat ∧
    (encode (.rnd x kk)).toNat = 0xC000 + 0x100 * x.val + kk.toNat ∧
    (encode (.drw x y n)).toNat = 0xD000 + 0x100 * x.val + 0x10 * y.val + n.val ∧
    (encode (.skp x)).toNat = 0xE09E + 0x100 * x.val ∧
    (encode (.sknp x)).toNat = 0xE0A1 + 0x100 * x.val ∧
    (encode (.ldVxDt x)).toNat = 0xF007 + 0x100 * x.val ∧
    (encode (.ldDtVx x)).toNat = 0xF015 + 0x100 * x.val ∧
    (encode (.ldStVx x)).toNat = 0xF018 + 0x100 * x.val ∧
    (encode (.ldF x)).toNat = 0xF029 + 0x100 * x.val ∧
    (encode (.ldB x)).toNat = 0xF033 + 0x100 * x.val ∧
    (encode (.ldVxI x)).toNat = 0xF065 + 0x100 * x.val

/-- Decoding the bytes of any instruction gives it back, with every operand at every value its
encoding admits. -/
def Obligations.DecodeOfEncodeIsIdentity : Prop :=
  ∀ i : Instr, i.wellFormed = true → decode (hiByte (encode i)) (loByte (encode i)) = .ok i

/-- Two bytes that decode to an instruction are the word that instruction encodes to: no bit of a
fetched word is lost, so the word that `ERR.opcode` records is the fetched one. -/
def Obligations.EncodeOfDecodeIsIdentity : Prop :=
  ∀ (b1 b2 : Byte) (i : Instr), decode b1 b2 = .ok i → encode i = b1 ++ b2

/-- The decoder agrees with the opcode map: a word is an instruction exactly when some row selects
it, its own row among them; no word selects two rows; every other word is rejected by name. -/
def Obligations.DecoderAgreesWithOpcodeMap : Prop :=
  (∀ w : Word, (∃ i, decodeWord w = .ok i ∧ i.row.selects w = true) ↔ wordWellFormed w = true) ∧
  (∀ w : Word, wordWellFormed w = false → decodeWord w = .error (.unimplementedOpcode w)) ∧
  (∀ w : Word, (opcodeMap.filter (·.selects w)).length ≤ 1)

/-! ## The step -/

/-- When no error is latched and the two bytes at `PC` exist and decode to `i`, the step is the
meaning of `i` at that state (R52). The instruction itself writes `PC`; the step adds nothing. -/
def Obligations.StepRunsDecodedInstruction : Prop :=
  ∀ (s : State) (i : Instr), Running s → Fetches s i → step s = exec i s

/-- A halted machine stays as it is under a step and under `TICK`: the spec's own decision (R127,
D4). -/
def Obligations.HaltedMachineIsIdle : Prop :=
  ∀ (c : Config) (s : State), ¬ Running s → step s = .next s ∧ tick c s = s

/-- A fetch at 0xFFF or above latches `MemoryOutOfBounds`, code 4, with opcode 0 and the first address
outside memory, and changes nothing else: the spec's own decisions, the error code among them (R32,
R120, R124, D2, D3, D5, D6). -/
def Obligations.FetchPastEndLatchesError : Prop :=
  ∀ s : State, Running s → 0xFFE < s.pc.toNat →
    ∃ t, step s = .next t ∧ OnlyChanges (· = .err) s t ∧
      t.err.valid = true ∧ t.err.code = 4 ∧ t.err.opcode = 0x0000 ∧ t.err.pc = s.pc ∧
      t.err.addr.toNat = max s.pc.toNat 0x1000

/-- A word that no row of the opcode map selects latches `UnimplementedOpcode`, code 1, with the word
and the address it was fetched from, and changes nothing else: no register, no byte of memory, and by
the spec's own decision not `PC` either (R124, D2, D3). The code is its own decision too (R120, D5). -/
def Obligations.UnimplementedWordLatchesError : Prop :=
  ∀ s : State, Running s → s.pc.toNat ≤ 0xFFE →
    wordWellFormed (s.mem.read s.pc.toNat ++ s.mem.read (s.pc.toNat + 1)) = false →
    ∃ t, step s = .next t ∧ OnlyChanges (· = .err) s t ∧
      t.err = ⟨true, 1, s.mem.read s.pc.toNat ++ s.mem.read (s.pc.toNat + 1), s.pc, 0⟩

/-- Every state has a successor under every transaction; no step faults or refuses. -/
def Obligations.EveryTransactionHasSuccessor : Prop :=
  ∀ (c : Config) (tr : Transaction) (s : State), ∃ t, transact c tr s = .next t

/-- A step that latches an error changes nothing else, names the address in `PC`, and records the
fetched word, or 0 when there was none to fetch; any other step leaves `ERR` alone. The spec's own
decisions, the codes among them (R120, R124, D2, D3, D5). -/
def Obligations.ErrorsArePrecise : Prop :=
  ∀ s t : State, Running s → step s = .next t →
    t.err = s.err ∨
    (OnlyChanges (· = .err) s t ∧ t.err.valid = true ∧ (∃ e : ErrKind, t.err.code = e.code) ∧
      t.err.pc = s.pc ∧
      t.err.opcode = if s.pc.toNat ≤ 0xFFE
        then s.mem.read s.pc.toNat ++ s.mem.read (s.pc.toNat + 1) else 0x0000)

/-! ## Control transfer -/

/-- `JP nnn` completes in every state and writes `PC` alone; a jump to itself changes nothing. -/
def Obligations.JumpSetsPc : Prop :=
  ∀ (nnn : Addr) (s : State), ∃ t, exec (.jp nnn) s = .next t ∧
    t.pc.toNat = nnn.toNat ∧ OnlyChanges (· = .pc) s t ∧ (nnn.toNat = s.pc.toNat → t = s)

/-- `CALL nnn` with room on the stack completes: `SP` goes up by one, the entry it then names holds
the address of the next instruction, `PC` is the target, and nothing else changes. That the stack is
a store of its own is the spec's own decision (R15, D22). -/
def Obligations.CallPushesReturnAddress : Prop :=
  ∀ (nnn : Addr) (s : State) (h : s.depth.val < 16), ∃ t, exec (.call nnn) s = .next t ∧
    t.sp = s.sp + 1 ∧ t.getStack ⟨s.depth.val, h⟩ = s.pc + 2 ∧ t.pc.toNat = nnn.toNat ∧
    OnlyChanges (fun e => e = .pc ∨ e = .sp ∨ e = .stack ⟨s.depth.val, h⟩) s t

/-- `RET` with an active call completes, whatever its ignored nibble: `PC` is the entry `SP` names,
`SP` goes down by one, and the popped entry is not cleared: that, and the ignored nibble, are the
spec's own decisions (D22, D14). -/
def Obligations.ReturnPopsPc : Prop :=
  ∀ (ign : Nibble) (s : State) (h : 0 < s.depth.val), ∃ t, exec (.ret ign) s = .next t ∧
    t.pc = s.getStack ⟨s.depth.val - 1, by omega⟩ ∧ t.sp = s.sp - 1 ∧
    OnlyChanges (fun e => e = .pc ∨ e = .sp) s t

/-- `CALL` with 16 calls active latches `StackOverflow`, code 2, and `RET` with none active latches
`StackUnderflow`, code 3, each with its word and `addr = 0`; nothing else changes. The latch and
the codes are the spec's own decisions (R120, R124, D2, D3, D5). -/
def Obligations.StackLimitsLatchErrors : Prop :=
  (∀ (nnn : Addr) (s : State), s.sp = 15 →
    ∃ t, exec (.call nnn) s = .next t ∧ OnlyChanges (· = .err) s t ∧
      t.err = ⟨true, 2, encode (.call nnn), s.pc, 0⟩) ∧
  (∀ (ign : Nibble) (s : State), s.sp = -1 →
    ∃ t, exec (.ret ign) s = .next t ∧ OnlyChanges (· = .err) s t ∧
      t.err = ⟨true, 3, encode (.ret ign), s.pc, 0⟩)

/-- Calls nest: carrying out any list of calls that the stack has room for, and then as many returns,
comes back to the instruction after the first call, with the stack as deep as before and only stack
entries at or above the old depth changed. -/
def Obligations.NestedCallsReturn : Prop :=
  ∀ (first : Addr) (more : List Addr) (s : State), s.depth.val + (more.length + 1) ≤ 16 →
    ∃ t, execAll ((first :: more).map .call ++ List.replicate (more.length + 1) (.ret 0)) s = .next t ∧
      t.pc = s.pc + 2 ∧
      OnlyChanges (fun e => e = .pc ∨ ∃ k : Fin 16, s.depth.val ≤ k.val ∧ e = .stack k) s t

/-- `SE Vx, kk` completes in every state and writes `PC` alone (R73). -/
def Obligations.SkipIfEqualWritesPc : Prop :=
  ∀ (x : Reg) (kk : Byte) (s : State), ∃ t, exec (.se x kk) s = .next t ∧
    t.pc = (if s.getV x = kk then s.pc + 2 + 2 else s.pc + 2) ∧ OnlyChanges (· = .pc) s t

/-- `SNE Vx, kk` completes in every state and writes `PC` alone; for any state exactly one of it and
`SE Vx, kk` skips (R74). -/
def Obligations.SkipIfNotEqualWritesPc : Prop :=
  ∀ (x : Reg) (kk : Byte) (s : State), ∃ t, exec (.sne x kk) s = .next t ∧
    t.pc = (if s.getV x ≠ kk then s.pc + 2 + 2 else s.pc + 2) ∧ OnlyChanges (· = .pc) s t ∧
    ∃ u, exec (.se x kk) s = .next u ∧ (t.pc = s.pc + 2 + 2 ↔ u.pc ≠ s.pc + 2 + 2)

/-! ## Load, arithmetic, logic, random -/

/-- `LD Vx, kk` completes in every state (R80). -/
def Obligations.LoadImmediateWritesRegister : Prop :=
  ∀ (x : Reg) (kk : Byte) (s : State), ∃ t, exec (.ldImm x kk) s = .next t ∧
    t.getV x = kk ∧ t.pc = s.pc + 2 ∧ OnlyChanges (fun e => e = .v x ∨ e = .pc) s t

/-- `ADD Vx, kk` completes in every state: the sum modulo 256, no flag (R81). -/
def Obligations.AddImmediateWraps : Prop :=
  ∀ (x : Reg) (kk : Byte) (s : State), ∃ t, exec (.addImm x kk) s = .next t ∧
    (t.getV x).toNat = ((s.getV x).toNat + kk.toNat) % 256 ∧ t.pc = s.pc + 2 ∧
    OnlyChanges (fun e => e = .v x ∨ e = .pc) s t

/-- `LD Vx, Vy` completes in every state (R82). -/
def Obligations.CopyRegisterWritesDestination : Prop :=
  ∀ (x y : Reg) (s : State), ∃ t, exec (.ldReg x y) s = .next t ∧
    t.getV x = s.getV y ∧ t.pc = s.pc + 2 ∧ OnlyChanges (fun e => e = .v x ∨ e = .pc) s t

/-- `AND Vx, Vy` completes in every state and touches no flag: bit by bit, `V[x]` keeps what `V[y]`
has too (R83). -/
def Obligations.AndRegistersKeepsCommonBits : Prop :=
  ∀ (x y : Reg) (s : State), ∃ t, exec (.andReg x y) s = .next t ∧
    (∀ k, (t.getV x).getLsbD k = ((s.getV x).getLsbD k && (s.getV y).getLsbD k)) ∧
    t.pc = s.pc + 2 ∧ OnlyChanges (fun e => e = .v x ∨ e = .pc) s t

/-- `ADD Vx, Vy` completes in every state: `V[x]` is the exact sum modulo 256, and `V[15]` the carry.
When `x = 15` the result is written last and remains: the spec's own decision (R87, D13). -/
def Obligations.AddRegistersSetsCarry : Prop :=
  ∀ (x y : Reg) (s : State), ∃ t, exec (.addReg x y) s = .next t ∧
    (t.getV x).toNat = ((s.getV x).toNat + (s.getV y).toNat) % 256 ∧
    (x ≠ 15 → t.getV 15 = if 256 ≤ (s.getV x).toNat + (s.getV y).toNat then 1 else 0) ∧
    t.pc = s.pc + 2 ∧ OnlyChanges (fun e => e = .v x ∨ e = .v 15 ∨ e = .pc) s t

/-- `SUB Vx, Vy` completes in every state: `V[x]` is the difference modulo 256, and `V[15]` is 0 when
there was a borrow, else 1. When `x = 15` the result is written last and remains: the spec's own
decision (R87, D13). -/
def Obligations.SubRegistersSetsNotBorrow : Prop :=
  ∀ (x y : Reg) (s : State), ∃ t, exec (.subReg x y) s = .next t ∧
    ((t.getV x).toNat : Int) = ((s.getV x).toNat - (s.getV y).toNat : Int) % 256 ∧
    (x ≠ 15 → t.getV 15 = if (s.getV x).toNat < (s.getV y).toNat then 0 else 1) ∧
    t.pc = s.pc + 2 ∧ OnlyChanges (fun e => e = .v x ∨ e = .v 15 ∨ e = .pc) s t

/-- `RND Vx, kk` completes in every state: one byte is drawn, whatever `kk` is, and `V[x]` is that
byte masked by `kk`, so no bit outside `kk` is set. The byte is the free value `Config.randByte` at
the model's counter of draws (log 2); nothing is said of its value. -/
def Obligations.RandomByteIsMasked : Prop :=
  ∀ (x : Reg) (kk : Byte) (s : State), ∃ t, exec (.rnd x kk) s = .next t ∧
    t.getV x = Config.randByte s.draws &&& kk ∧ t.getV x &&& ~~~kk = 0 ∧ t.draws = s.draws + 1 ∧
    t.pc = s.pc + 2 ∧ OnlyChanges (fun e => e = .v x ∨ e = .draws ∨ e = .pc) s t

/-! ## Index register and memory -/

/-- `LD I, nnn` completes in every state (R90). -/
def Obligations.LoadIndexWritesI : Prop :=
  ∀ (nnn : Addr) (s : State), ∃ t, exec (.ldI nnn) s = .next t ∧
    t.i.toNat = nnn.toNat ∧ t.pc = s.pc + 2 ∧ OnlyChanges (fun e => e = .i ∨ e = .pc) s t

/-- `LD F, Vx` completes in every state: the whole byte times 5, exact. That a value above 15 is not
reduced to its low nibble is the spec's own reading (R91, D27). -/
def Obligations.LoadGlyphAddressIsExact : Prop :=
  ∀ (x : Reg) (s : State), ∃ t, exec (.ldF x) s = .next t ∧
    t.i.toNat = 5 * (s.getV x).toNat ∧ t.pc = s.pc + 2 ∧ OnlyChanges (fun e => e = .i ∨ e = .pc) s t

/-- `LD B, Vx` with `I` from 0x200 to 0xFFD completes: the hundreds, tens and ones digit of `V[x]` at
`I`, `I + 1`, `I + 2`, every other byte as before, `I` unchanged. Premise: memory is in its canonical
form, which every step keeps (`TransactionKeepsInvariant`). That `I` stays is the spec's own decision
(R94, D19). -/
def Obligations.StoreDigitsWritesThreeBytes : Prop :=
  ∀ (x : Reg) (s : State), s.mem.wf = true → 0x200 ≤ s.i.toNat → s.i.toNat ≤ 0xFFD →
    ∃ t, exec (.ldB x) s = .next t ∧
      (t.mem.read (s.effAddr 0)).toNat = (s.getV x).toNat / 100 ∧
      (t.mem.read (s.effAddr 1)).toNat = (s.getV x).toNat / 10 % 10 ∧
      (t.mem.read (s.effAddr 2)).toNat = (s.getV x).toNat % 10 ∧
      t.pc = s.pc + 2 ∧
      OnlyChanges (fun e => e = .pc ∨ ∃ j, j ≤ 2 ∧ e = .mem (s.effAddr j)) s t

/-- `LD B, Vx` below 0x200 latches `ReservedRegionWrite`, code 6, with `addr = I`, and past the end of
memory `MemoryOutOfBounds`, code 4; either way no byte is stored and nothing else changes. The spec's
own decisions, the codes among them (R34, R43, R120, R124, D2, D3, D5, D7). -/
def Obligations.StoreDigitsOutsideProgramRegionLatchesError : Prop :=
  ∀ (x : Reg) (s : State),
    (s.i.toNat < 0x200 → ∃ t, exec (.ldB x) s = .next t ∧ OnlyChanges (· = .err) s t ∧
      t.err = ⟨true, 6, encode (.ldB x), s.pc, s.i⟩) ∧
    (0xFFD < s.i.toNat → ∃ t, exec (.ldB x) s = .next t ∧ OnlyChanges (· = .err) s t ∧
      t.err = ⟨true, 4, encode (.ldB x), s.pc, BitVec.ofNat 16 (max s.i.toNat 0x1000)⟩)

/-- `LD Vx, [I]` with all `x + 1` bytes inside memory completes: registers 0 to `x` are loaded,
those above are as before, and `I` is unchanged: the spec's own decision (R94, D19). -/
def Obligations.LoadRegistersReadsMemory : Prop :=
  ∀ (x : Reg) (s : State), InsideMemory s (x.val + 1) → ∃ t, exec (.ldVxI x) s = .next t ∧
    (∀ r : Reg, r ≤ x → t.getV r = s.mem.read (s.effAddr r.val)) ∧ t.pc = s.pc + 2 ∧
    OnlyChanges (fun e => e = .pc ∨ ∃ r : Reg, r ≤ x ∧ e = .v r) s t

/-- `LD Vx, [I]` and `DRW Vx, Vy, n` whose bytes do not all lie inside memory latch
`MemoryOutOfBounds`, code 4, with the first address outside, and change nothing else, not even the
registers in range or `V[15]`. The spec's own decisions, the code among them (R43, R120,
R124, D2, D3, D5, D12). -/
def Obligations.ReadPastEndLatchesError : Prop :=
  (∀ (x : Reg) (s : State), ¬ InsideMemory s (x.val + 1) →
    ∃ t, exec (.ldVxI x) s = .next t ∧ OnlyChanges (· = .err) s t ∧
      t.err = ⟨true, 4, encode (.ldVxI x), s.pc, BitVec.ofNat 16 (max s.i.toNat 0x1000)⟩) ∧
  (∀ (x y : Reg) (n : Fin 16) (s : State), n ≠ 0 → ¬ InsideMemory s n.val →
    ∃ t, exec (.drw x y n) s = .next t ∧ OnlyChanges (· = .err) s t ∧
      t.err = ⟨true, 4, encode (.drw x y n), s.pc, BitVec.ofNat 16 (max s.i.toNat 0x1000)⟩)

/-- The check of an access to `k + 1` bytes from `a` passes exactly when each of them may be accessed:
it lies inside memory and, for a write, not below 0x200 (R43). After it no single access can fault
(R33, R34). Checking the whole range first and the floor at 0x200 are the spec's own decisions (D3,
D12, D7). -/
def Obligations.RangeCheckCoversEveryByte : Prop :=
  ∀ (a k : Nat) (acc : Access), checkRange a k acc = none ↔
    ∀ j, j ≤ k → a + j ≤ 0xFFF ∧ (acc = .write → 0x200 ≤ a + j)

/-- Memory is plain storage: in its canonical form a write changes exactly the byte addressed and
keeps the form, and two memories that read alike everywhere are the same data. The canonical form is
the model's (log 3). -/
def Obligations.MemoryIsPlainStorage : Prop :=
  (∀ (m : Memory) (a b : Nat) (v : Byte), m.wf = true → a < 0x1000 →
    (m.write a v).wf = true ∧ (m.write a v).read a = v ∧
    (b ≠ a → (m.write a v).read b = m.read b)) ∧
  (∀ m m' : Memory, m.wf = true → m'.wf = true → (∀ a, a < 0x1000 → m.read a = m'.read a) → m = m')

/-! ## Drawing -/

/-- `DRW Vx, Vy, n` with its sprite inside memory completes: exactly the pixels under a set sprite bit
inside the grid are toggled (clipped, never wrapped), `V[15]` is 1 when one of them was on and 0
otherwise, and `I`, memory and every other register are unchanged. With no row there is no check and
`V[15]` is 0; with `x` or `y` equal to 15 the old `V[15]` is the coordinate: the spec's own decisions
(R105, D10; R102, D11). -/
def Obligations.DrawTogglesCoveredPixels : Prop :=
  ∀ (x y : Reg) (n : Fin 16) (s : State), n = 0 ∨ InsideMemory s n.val →
    ∃ t, exec (.drw x y n) s = .next t ∧
      (∀ py px, Covers s (s.getV x).toNat (s.getV y).toNat n.val py px →
        t.disp.get py px = !s.disp.get py px) ∧
      (∀ py px, ¬ Covers s (s.getV x).toNat (s.getV y).toNat n.val py px →
        t.disp.get py px = s.disp.get py px) ∧
      ((∃ py px, Covers s (s.getV x).toNat (s.getV y).toNat n.val py px ∧ s.disp.get py px = true) →
        t.getV 15 = 1) ∧
      (¬ (∃ py px, Covers s (s.getV x).toNat (s.getV y).toNat n.val py px ∧ s.disp.get py px = true) →
        t.getV 15 = 0) ∧
      t.pc = s.pc + 2 ∧
      OnlyChanges (fun e => e = .pc ∨ e = .v 15 ∨ ∃ py px, e = .disp py px) s t

/-- Drawing the same sprite at the same place twice restores every pixel, and the second collision
flag is 1 exactly when some set sprite bit inside the grid lay on a pixel that was off before the
first draw: the exact law of R106, which the spec marks as derived by itself. With `x` or `y` equal to
15 the second draw's coordinate is the first one's flag, and R106 leaves these out. That `I` stays and
that no row means no check are the spec's own decisions (D19, D10). -/
def Obligations.DrawTwiceRestoresDisplay : Prop :=
  ∀ (x y : Reg) (n : Fin 16) (s : State), x ≠ 15 → y ≠ 15 → n = 0 ∨ InsideMemory s n.val →
    ∃ u, execAll [.drw x y n, .drw x y n] s = .next u ∧
      (∀ py px, u.disp.get py px = s.disp.get py px) ∧
      (u.getV 15 = 1 ↔ ∃ py px, Covers s (s.getV x).toNat (s.getV y).toNat n.val py px ∧
        s.disp.get py px = false) ∧
      OnlyChanges (fun e => e = .pc ∨ e = .v 15) s u

/-- A sprite whose origin is right of or below the grid draws nothing, whatever its bytes: columns and
rows are clipped, not wrapped (R103). That no row means no check is the spec's own decision (R105,
D10), and so is which coordinates are used: read first, with sums that do not wrap (R102, D11), and
clipped rows still checked (D12). -/
def Obligations.DrawOutsideGridIsInvisible : Prop :=
  ∀ (x y : Reg) (n : Fin 16) (s : State), n = 0 ∨ InsideMemory s n.val →
    64 ≤ (s.getV x).toNat ∨ 32 ≤ (s.getV y).toNat →
    ∃ t, exec (.drw x y n) s = .next t ∧ t.disp = s.disp ∧ t.getV 15 = 0

/-! ## Keypad and timers -/

/-- `SKP Vx` and `SKNP Vx` with `V[x]` at most 15 complete and write `PC` alone: one skips when the
key that the value `V[x]` names is pressed, the other when it is not. -/
def Obligations.KeySkipsReadNamedKey : Prop :=
  ∀ (x : Reg) (s : State) (h : (s.getV x).toNat < 16),
    (∃ t, exec (.skp x) s = .next t ∧ OnlyChanges (· = .pc) s t ∧
      t.pc = if s.getKey ⟨(s.getV x).toNat, h⟩ = true then s.pc + 2 + 2 else s.pc + 2) ∧
    (∃ t, exec (.sknp x) s = .next t ∧ OnlyChanges (· = .pc) s t ∧
      t.pc = if s.getKey ⟨(s.getV x).toNat, h⟩ = false then s.pc + 2 + 2 else s.pc + 2)

/-- `SKP Vx` and `SKNP Vx` with `V[x]` above 15 latch `KeyIndexOutOfBounds`, code 5, with
`addr = V[x]`, and change nothing else. The spec's own decisions, the code among them (R110,
R111, R120, R124, D2, D3, D5, D8). -/
def Obligations.KeyNumberAbove15LatchesError : Prop :=
  ∀ (x : Reg) (s : State), 15 < (s.getV x).toNat →
    (∃ t, exec (.skp x) s = .next t ∧ OnlyChanges (· = .err) s t ∧
      t.err = ⟨true, 5, encode (.skp x), s.pc, (s.getV x).setWidth 16⟩) ∧
    (∃ t, exec (.sknp x) s = .next t ∧ OnlyChanges (· = .err) s t ∧
      t.err = ⟨true, 5, encode (.sknp x), s.pc, (s.getV x).setWidth 16⟩)

/-- `LD Vx, DT` completes in every state and leaves `DT` (R112). -/
def Obligations.ReadDelayTimerWritesRegister : Prop :=
  ∀ (x : Reg) (s : State), ∃ t, exec (.ldVxDt x) s = .next t ∧
    t.getV x = s.dt ∧ t.pc = s.pc + 2 ∧ OnlyChanges (fun e => e = .v x ∨ e = .pc) s t

/-- `LD DT, Vx` completes in every state (R113). -/
def Obligations.SetDelayTimerWritesDt : Prop :=
  ∀ (x : Reg) (s : State), ∃ t, exec (.ldDtVx x) s = .next t ∧
    t.dt = s.getV x ∧ t.pc = s.pc + 2 ∧ OnlyChanges (fun e => e = .dt ∨ e = .pc) s t

/-- `LD ST, Vx` completes in every state (R114). -/
def Obligations.SetSoundTimerWritesSt : Prop :=
  ∀ (x : Reg) (s : State), ∃ t, exec (.ldStVx x) s = .next t ∧
    t.st = s.getV x ∧ t.pc = s.pc + 2 ∧ OnlyChanges (fun e => e = .st ∨ e = .pc) s t

/-! ## The other transactions -/

/-- `TICK` on a machine with no error latched counts both timers down by one and changes nothing
else. At 0 a timer stays 0 under `saturate` and becomes 255 under `wrap`: the spec's parameter
`TIMER_UNDERFLOW` (R133, D9; log 4). What `TICK` does once an error is latched is
`HaltedMachineIsIdle`. -/
def Obligations.TickCountsBothTimersDown : Prop :=
  ∀ (c : Config) (s : State), Running s →
    OnlyChanges (fun e => e = .dt ∨ e = .st) s (tick c s) ∧
    (s.dt ≠ 0 → (tick c s).dt.toNat = s.dt.toNat - 1) ∧
    (s.st ≠ 0 → (tick c s).st.toNat = s.st.toNat - 1) ∧
    (s.dt = 0 → (tick c s).dt = if c.timerUnderflow = .saturate then 0 else 255) ∧
    (s.st = 0 → (tick c s).st = if c.timerUnderflow = .saturate then 0 else 255)

/-- `LOAD` of an image of at most 3584 bytes, halted or not, copies it to 0x200 upward and changes
nothing else; of a longer image it writes nothing and reports `LoadTooLarge`: the spec's own decisions
(R127, D4; R143, D15). Premise: memory is in its canonical form. -/
def Obligations.LoadCopiesImage : Prop :=
  ∀ (bytes : List Byte) (s : State), s.mem.wf = true →
    (bytes.length ≤ 3584 → (load bytes s).2 = .ok ∧
      (∀ (j : Nat) (h : j < bytes.length), (load bytes s).1.mem.read (0x200 + j) = bytes[j]) ∧
      OnlyChanges (fun e => ∃ j, j < bytes.length ∧ e = .mem (0x200 + j)) s (load bytes s).1) ∧
    (3584 < bytes.length → load bytes s = (s, .loadTooLarge))

/-- `KEY_SET(k, b)` writes slot `k` and nothing else, whether or not the machine is halted: the spec's
own decision (R115, R127, D4). -/
def Obligations.KeySetWritesOneSlot : Prop :=
  ∀ (k : Fin 16) (b : Bool) (s : State),
    (keySet k b s).getKey k = b ∧ OnlyChanges (· = .key k) s (keySet k b s)

/-- `RESET` at any time gives every element its reset value, `FONT` at 0x000 to 0x04F and zeros from
there; only the model's counter of random bytes goes on (log 2). With the default parameters it is
the host's reset state. That `RESET` may be repeated is the spec's own decision (D17). -/
def Obligations.ResetGivesEveryElement : Prop :=
  (∀ (c : Config) (s : State),
    (∀ r, (reset c s).getV r = 0) ∧ (reset c s).i = 0 ∧ (reset c s).pc = 0x200 ∧
    (reset c s).sp = -1 ∧ (∀ k, (reset c s).getStack k = 0) ∧
    (reset c s).dt = 0 ∧ (reset c s).st = 0 ∧
    (∀ (d : Fin 16) (row : Fin 5), (reset c s).mem.read (5 * d.val + row.val) = c.font[d][row]) ∧
    (∀ a, 80 ≤ a → a < 0x1000 → (reset c s).mem.read a = 0) ∧
    (∀ y x, (reset c s).disp.get y x = false) ∧ (∀ k, (reset c s).getKey k = false) ∧
    (reset c s).err = ⟨false, 0, 0, 0, 0⟩ ∧ (reset c s).draws = s.draws) ∧
  resetWith defaultConfig = State.reset

/-- After `RESET` and one `LOAD` the first step runs the image's first instruction. -/
def Obligations.FirstStepAfterLoadRunsImage : Prop :=
  ∀ (c : Config) (s : State) (b1 b2 : Byte) (rest : List Byte) (i : Instr),
    rest.length ≤ 3582 → decode b1 b2 = .ok i →
    history c [.reset, .load (b1 :: b2 :: rest), .step] s =
      exec i (load (b1 :: b2 :: rest) (reset c s)).1

/-! ## The whole machine -/

/-- Which instructions can change which element of state, for every element. A general register is
written by the instructions that name it (R10) and, as a flag, `V[15]` by three (R11); `PC` is somewhere
else than past the instruction only after a jump, a taken skip, or an error that leaves it (R13); `ERR`
changes only by an error of a kind the instruction raises (R120); each other element tells what ran,
and no instruction changes a key. It rests on the spec's own decisions D2, D3, D5 (the latch and its
codes), D7, D8 (the last two errors), D19 (`I` has no side effects) and D22 (the stack). `draws` is the
model's counter (log 2). -/
def Obligations.WritersOfEachElement : Prop :=
  ∀ (i : Instr) (s t : State), exec i s = .next t →
    (∀ r, t.getV r ≠ s.getV r →
      (∃ kk, i = .ldImm r kk ∨ i = .addImm r kk ∨ i = .rnd r kk) ∨
      (∃ y, i = .ldReg r y ∨ i = .andReg r y) ∨ i = .ldVxDt r ∨ (∃ x, r ≤ x ∧ i = .ldVxI x) ∨
      (∃ x y, (r = x ∨ r = 15) ∧ (i = .addReg x y ∨ i = .subReg x y)) ∨
      (r = 15 ∧ ∃ x y n, i = .drw x y n)) ∧
    (t.pc ≠ s.pc + 2 →
      (∃ nnn, i = .jp nnn ∨ i = .call nnn) ∨ (∃ ign, i = .ret ign) ∨
      (t.pc = s.pc + 2 + 2 ∧
        ((∃ x kk, i = .se x kk ∨ i = .sne x kk) ∨ ∃ x, i = .skp x ∨ i = .sknp x)) ∨
      (t.pc = s.pc ∧ t.err.valid = true ∧ ∃ e : ErrKind, t.err.code = e.code ∧ e.RaisedBy i)) ∧
    (t.err ≠ s.err → ∃ e : ErrKind, t.err.valid = true ∧ t.err.code = e.code ∧ e.RaisedBy i) ∧
    ((∃ a, t.mem.read a ≠ s.mem.read a) → ∃ x, i = .ldB x) ∧
    ((∃ y x, t.disp.get y x ≠ s.disp.get y x) → ∃ x y n, i = .drw x y n) ∧
    (t.depth ≠ s.depth → (∃ nnn, i = .call nnn) ∨ ∃ ign, i = .ret ign) ∧
    ((∃ k, t.getStack k ≠ s.getStack k) → ∃ nnn, i = .call nnn) ∧
    (t.i ≠ s.i → (∃ nnn, i = .ldI nnn) ∨ ∃ x, i = .ldF x) ∧
    (t.dt ≠ s.dt → ∃ x, i = .ldDtVx x) ∧
    (t.st ≠ s.st → ∃ x, i = .ldStVx x) ∧
    (t.draws ≠ s.draws → ∃ x kk, i = .rnd x kk) ∧
    (∀ k, t.getKey k = s.getKey k)

/-- The invariant holds after `RESET`, with any parameters, and in the host's reset state with the
default ones. -/
def Obligations.InvariantHoldsAtReset : Prop :=
  (∀ c : Config, Inv c (resetWith c)) ∧ Inv defaultConfig State.reset

/-- Every step keeps the invariant: `I` inside memory, `PC` at most 0x1002, return addresses at most
0x1000, the reserved region at its reset value, `ERR` quiet or naming `PC`, memory canonical. The
reserved region, the latch and its codes rest on the spec's own decisions (D2, D3, D5, D7). -/
def Obligations.StepKeepsInvariant : Prop :=
  ∀ (c : Config) (s t : State), Inv c s → step s = .next t → Inv c t

/-- Every transaction keeps the invariant, so it holds in every state that a history reaches. The
reserved region, the latch and its codes rest on the spec's own decisions (D2, D3, D5, D7). -/
def Obligations.TransactionKeepsInvariant : Prop :=
  (∀ (c : Config) (tr : Transaction) (s t : State), Inv c s → transact c tr s = .next t → Inv c t) ∧
  (∀ (c : Config) (s : State), Reachable c s → Inv c s)

/-- Once an error is latched, no history without `RESET` clears or changes it, and nothing changes but
bytes of the program region (by `LOAD`) and keys (by `KEY_SET`). The spec's own decision (R127,
D4). -/
def Obligations.HaltedUntilReset : Prop :=
  ∀ (c : Config) (trs : List Transaction) (s t : State), s.mem.wf = true → ¬ Running s →
    Transaction.reset ∉ trs → history c trs s = .next t →
    ¬ Running t ∧ OnlyChanges (fun e => (∃ a, 0x200 ≤ a ∧ e = .mem a) ∨ ∃ k, e = .key k) s t

/-! ## Listings -/

/-- The no-op idiom of R61, `ADD V0, 0`: the word 0x7000 decodes to it, adding 0 to any register changes
`PC` alone, and a step of a running machine that fetches that word leaves the same state but for
`PC + 2`. The spec marks it as derived from R81. -/
def Obligations.AddZeroIsNoOp : Prop :=
  decode 0x70 0x00 = .ok (.addImm 0 0) ∧
  (∀ (x : Reg) (s : State), exec (.addImm x 0) s = .next { s with pc := s.pc + 2 }) ∧
  (∀ s : State, Running s → s.pc.toNat ≤ 0xFFE →
    s.mem.read s.pc.toNat = 0x70 → s.mem.read (s.pc.toNat + 1) = 0x00 →
    step s = .next { s with pc := s.pc + 2 })

/-- A spelling stands for one instruction: two instructions spelled alike are the same, but for the
nibble `RET` ignores. No mnemonic is a second name (R61). The mnemonics are the spec's own decision
(D21), the ignored nibble too (D14). -/
def Obligations.AssemblyNamesOneInstruction : Prop :=
  ∀ i j : Instr, assembly i = assembly j ↔ i = j ∨ ∃ a b, i = .ret a ∧ j = .ret b
end

