-- ==== Sys2Proof/Laws/Decode.lean ====
section
/-! SUPPORT. The two bytes of a word put together from its parts, and the fields of those bytes. -/

namespace Sys2Proof

@[simp] theorem regOfNibble_nibbleOfReg (r : Reg) : regOfNibble (nibbleOfReg r) = r := by
  apply Fin.ext
  simp [regOfNibble, nibbleOfReg]

@[simp] theorem nibbleOfReg_regOfNibble (n : Nibble) : nibbleOfReg (regOfNibble n) = n := by
  simp [regOfNibble, nibbleOfReg]

/-- The less significant part of a concatenation. -/
theorem extractLsb'_append_low {m n : Nat} (a : BitVec m) (b : BitVec n) :
    (a ++ b).extractLsb' 0 n = b := by
  apply BitVec.eq_of_getLsbD_eq
  intro i hi
  simp [BitVec.getLsbD_append, hi]

/-- Cutting a value at bit `n` and putting it together again. -/
theorem extractLsb'_append_self {m n : Nat} (a : BitVec (m + n)) :
    a.extractLsb' n m ++ a.extractLsb' 0 n = a := by
  apply BitVec.eq_of_getLsbD_eq
  intro i hi
  rw [BitVec.getLsbD_append]
  by_cases h : i < n
  · simp [h]
  · simp [h, show i - n < m by omega, show n + (i - n) = i by omega]

theorem hiByte_append (b1 b2 : Byte) : hiByte (b1 ++ b2) = b1 :=
  BitVec.extractLsb'_append_eq_left

theorem loByte_append (b1 b2 : Byte) : loByte (b1 ++ b2) = b2 := extractLsb'_append_low b1 b2

/-- A word is its two bytes (R31). -/
theorem hiByte_append_loByte (w : Word) : hiByte w ++ loByte w = w :=
  extractLsb'_append_self (m := 8) (n := 8) w

theorem hiByte_wordXK (a b : Nibble) (k : Byte) : hiByte (wordXK a b k) = a ++ b :=
  hiByte_append (a ++ b) k

theorem loByte_wordXK (a b : Nibble) (k : Byte) : loByte (wordXK a b k) = k :=
  loByte_append (a ++ b) k

theorem fieldsOf_append (a b : Nibble) (k : Byte) :
    fieldsOf (a ++ b) k = ⟨a, b, k.extractLsb' 4 4, k.extractLsb' 0 4, k, b ++ k⟩ := by
  have h1 : (a ++ b : Byte).extractLsb' 4 4 = a := BitVec.extractLsb'_append_eq_left
  have h2 : (a ++ b : Byte).extractLsb' 0 4 = b := extractLsb'_append_low a b
  simp only [fieldsOf, h1, h2]

/-- The fields of a word of the formats `Z`, `XK`, `XS` (R50, R51). -/
theorem fieldsOf_wordXK (a b : Nibble) (k : Byte) :
    fieldsOf (hiByte (wordXK a b k)) (loByte (wordXK a b k)) =
      ⟨a, b, k.extractLsb' 4 4, k.extractLsb' 0 4, k, b ++ k⟩ := by
  rw [hiByte_wordXK, loByte_wordXK, fieldsOf_append]

theorem append_assoc_word (a b : Nibble) (k : Byte) :
    (a ++ (b ++ k : Addr) : Word) = (a ++ b ++ k : Word) := by
  exact (BitVec.append_assoc (x₁ := a) (x₂ := b) (x₃ := k)).symm

/-- Format `A` is format `XK` with the address cut at bit 8 (R51). -/
theorem wordA_eq (a : Nibble) (nnn : Addr) :
    wordA a nnn = wordXK a (nnn.extractLsb' 8 4) (nnn.extractLsb' 0 8) := by
  have h := append_assoc_word a (nnn.extractLsb' 8 4) (nnn.extractLsb' 0 8)
  have h' : (nnn.extractLsb' 8 4 ++ nnn.extractLsb' 0 8 : Addr) = nnn :=
    extractLsb'_append_self (m := 4) (n := 8) nnn
  rw [h'] at h
  exact h

/-- The fields of a word of the format `A` (R50, R51). -/
theorem fieldsOf_wordA (a : Nibble) (nnn : Addr) :
    (fieldsOf (hiByte (wordA a nnn)) (loByte (wordA a nnn))).n1 = a ∧
    (fieldsOf (hiByte (wordA a nnn)) (loByte (wordA a nnn))).addr = nnn := by
  rw [wordA_eq, fieldsOf_wordXK]
  exact ⟨rfl, extractLsb'_append_self (m := 4) (n := 8) nnn⟩

theorem wordOfNibbles_eq (a b c d : Nibble) : wordOfNibbles a b c d = wordXK a b (c ++ d) := by
  exact BitVec.append_assoc (x₁ := (a ++ b : Byte)) (x₂ := c) (x₃ := d)

/-- The fields of a word of the formats `XY`, `XYN` (R50, R51). -/
theorem fieldsOf_wordOfNibbles (a b c d : Nibble) :
    fieldsOf (hiByte (wordOfNibbles a b c d)) (loByte (wordOfNibbles a b c d)) =
      ⟨a, b, c, d, c ++ d, b ++ (c ++ d : Byte)⟩ := by
  have h1 : (c ++ d : Byte).extractLsb' 4 4 = c := BitVec.extractLsb'_append_eq_left
  have h2 : (c ++ d : Byte).extractLsb' 0 4 = d := extractLsb'_append_low c d
  rw [wordOfNibbles_eq, fieldsOf_wordXK, h1, h2]

/-- The value of a word of the formats `Z`, `XK`, `XS`. -/
theorem wordXK_toNat (a b : Nibble) (k : Byte) :
    (wordXK a b k).toNat = a.toNat * 0x1000 + b.toNat * 0x100 + k.toNat := by
  have h1 : (wordXK a b k).toNat = (a ++ b : Byte).toNat <<< 8 ||| k.toNat := BitVec.toNat_append _ _
  have h2 : (a ++ b : Byte).toNat = a.toNat <<< 4 ||| b.toNat := BitVec.toNat_append _ _
  rw [h1, ← Nat.shiftLeft_add_eq_or_of_lt k.isLt, h2, ← Nat.shiftLeft_add_eq_or_of_lt b.isLt]
  simp [Nat.shiftLeft_eq]
  omega

/-- The value of a word of the format `A`. -/
theorem wordA_toNat (a : Nibble) (nnn : Addr) : (wordA a nnn).toNat = a.toNat * 0x1000 + nnn.toNat := by
  have h : (wordA a nnn).toNat = a.toNat <<< 12 ||| nnn.toNat := BitVec.toNat_append _ _
  rw [h, ← Nat.shiftLeft_add_eq_or_of_lt nnn.isLt]
  simp [Nat.shiftLeft_eq]

/-- The value of a word of the formats `XY`, `XYN`. -/
theorem wordOfNibbles_toNat (a b c d : Nibble) : (wordOfNibbles a b c d).toNat =
    a.toNat * 0x1000 + b.toNat * 0x100 + c.toNat * 0x10 + d.toNat := by
  have h : (c ++ d : Byte).toNat = c.toNat <<< 4 ||| d.toNat := BitVec.toNat_append _ _
  rw [wordOfNibbles_eq, wordXK_toNat, h, ← Nat.shiftLeft_add_eq_or_of_lt d.isLt]
  simp [Nat.shiftLeft_eq]
  omega

@[simp] theorem nibbleOfReg_toNat (r : Reg) : (nibbleOfReg r).toNat = r.val := by simp [nibbleOfReg]

/-- A fact about the sixteen nibbles holds of every nibble. -/
theorem nibble_cases {P : Nibble → Prop} (h : ∀ k : Fin 16, P (BitVec.ofNat 4 k.val)) (n : Nibble) :
    P n := by
  simpa using h ⟨n.toNat, n.isLt⟩

/-- Two bytes are the word of their fields (R50). -/
theorem append_eq_wordXK (b1 b2 : Byte) :
    (b1 ++ b2 : Word) = wordXK (fieldsOf b1 b2).n1 (fieldsOf b1 b2).n2 b2 := by
  have h : (b1.extractLsb' 4 4 ++ b1.extractLsb' 0 4 : Byte) = b1 :=
    extractLsb'_append_self (m := 4) (n := 4) b1
  show (b1 ++ b2 : Word) = (b1.extractLsb' 4 4 ++ b1.extractLsb' 0 4 : Byte) ++ b2
  rw [h]

/-- An answer of the decoder is what the selection answers (R53). -/
theorem decode_ok_iff (b1 b2 : Byte) (i : Instr) :
    decode b1 b2 = .ok i ↔ select (fieldsOf b1 b2) = some i := by
  unfold decode
  split
  · next h => simp [h]
  · next h => simp [h]

/-- The decoder rejects exactly what the selection rejects, and names the word (R58). -/
theorem decode_error_iff (b1 b2 : Byte) (e : DecodeReject) :
    decode b1 b2 = .error e ↔
      select (fieldsOf b1 b2) = none ∧ e = .unimplementedOpcode (b1 ++ b2) := by
  unfold decode
  split
  · next h => simp [h]
  · next h => simp [h, eq_comm]

end Sys2Proof
end

