-- ==== Sys2Proof/Laws/Memory.lean ====
section
/-! SUPPORT. What memory operations do: the canonical form is kept, a read after a write gives the
value written, a write leaves every other byte alone, equal memories are equal data. -/

namespace Sys2Proof.Machine

theorem cellsWf_cons {lo b : Nat} {w : Byte} {rest : List Host.Cell} :
    cellsWf lo ((b, w) :: rest) = true ↔
      lo ≤ b ∧ b < Config.memSize ∧ w ≠ background b ∧ cellsWf (b + 1) rest = true := by
  simp [cellsWf, and_assoc]

theorem cellsWf_mono {lo lo' : Nat} (h : lo' ≤ lo) {l : List Host.Cell}
    (hl : cellsWf lo l = true) : cellsWf lo' l = true := by
  cases l with
  | nil => rfl
  | cons c rest =>
    obtain ⟨b, w⟩ := c
    rw [cellsWf_cons] at hl ⊢
    exact ⟨h.trans hl.1, hl.2⟩

/-- Below the first address of a list every address reads as unlisted. -/
theorem lookupCell_below {lo a : Nat} {l : List Host.Cell} (h : cellsWf lo l = true) (ha : a < lo) :
    lookupCell a l = background a := by
  cases l with
  | nil => rfl
  | cons c rest =>
    obtain ⟨b, w⟩ := c
    rw [cellsWf_cons] at h
    simp [lookupCell, show a < b by omega]

theorem putCell_wf {lo a : Nat} (v : Byte) {l : List Host.Cell} (h : cellsWf lo l = true)
    (ha : lo ≤ a) (hm : a < Config.memSize) : cellsWf lo (putCell a v l) = true := by
  induction l generalizing lo with
  | nil =>
    unfold putCell
    split
    · rfl
    · rw [cellsWf_cons]; exact ⟨ha, hm, ‹_›, rfl⟩
  | cons c rest ih =>
    obtain ⟨b, w⟩ := c
    have h' := cellsWf_cons.1 h
    unfold putCell
    split
    · next hab =>
      split
      · exact h
      · rw [cellsWf_cons]; exact ⟨ha, hm, ‹_›, cellsWf_cons.2 ⟨hab, h'.2⟩⟩
    · split
      · next hab heq =>
        subst heq
        split
        · exact cellsWf_mono (by omega) h'.2.2.2
        · exact cellsWf_cons.2 ⟨ha, hm, ‹_›, h'.2.2.2⟩
      · exact cellsWf_cons.2 ⟨h'.1, h'.2.1, h'.2.2.1, ih h'.2.2.2 (by omega)⟩

theorem lookupCell_putCell {lo a : Nat} (v : Byte) {l : List Host.Cell} (h : cellsWf lo l = true)
    (b : Nat) : lookupCell b (putCell a v l) = if b = a then v else lookupCell b l := by
  induction l generalizing lo with
  | nil =>
    unfold putCell
    by_cases hv : v = background a <;> by_cases hb : b = a
    · subst hb; simp [hv, lookupCell]
    · simp [hv, hb, lookupCell]
    · subst hb; simp [hv, lookupCell]
    · simp [hv, hb, lookupCell]
  | cons c rest ih =>
    obtain ⟨d, w⟩ := c
    have h' := cellsWf_cons.1 h
    have ih := ih h'.2.2.2
    have low : ∀ x, x ≤ d → lookupCell x rest = background x := fun x hx =>
      lookupCell_below h'.2.2.2 (by omega)
    unfold putCell
    split
    · next had =>
      by_cases hv : v = background a
      · by_cases hb : b = a
        · subst hb; simp [hv, lookupCell, had]
        · simp [hv, hb]
      · by_cases hb : b = a
        · subst hb; simp [hv, lookupCell]
        · by_cases hlt : b < a
          · simp [hv, hb, lookupCell, hlt, show b < d by omega]
          · simp [hv, hb, lookupCell, hlt]
    · next had =>
      split
      · next heq =>
        subst heq
        by_cases hv : v = background a
        · by_cases hb : b = a
          · subst hb; simp [hv, low]
          · by_cases hlt : b < a
            · simp [hv, hb, lookupCell, hlt, low b (by omega)]
            · simp [hv, hb, lookupCell, hlt]
        · by_cases hb : b = a
          · subst hb; simp [hv, lookupCell]
          · simp [hv, hb, lookupCell]
      · next heq =>
        simp only [lookupCell, ih]
        by_cases hb : b = a
        · subst hb; simp [had, heq]
        · simp [hb]

/-- Every write keeps the canonical form, whatever the address and the byte. -/
theorem Memory.write_wf (m : Memory) (h : m.wf = true) (a : Nat) (v : Byte) : (m.write a v).wf = true := by
  unfold Memory.write
  split
  · exact putCell_wf v h (Nat.zero_le a) ‹_›
  · exact h

theorem Memory.read_write (m : Memory) (h : m.wf = true) (a b : Nat) (v : Byte)
    (ha : a < Config.memSize) : (m.write a v).read b = if b = a then v else m.read b := by
  simp only [Memory.write, ha, if_true, Memory.read]
  exact lookupCell_putCell v h b

theorem Memory.read_write_same (m : Memory) (h : m.wf = true) (a : Nat) (v : Byte)
    (ha : a < Config.memSize) : (m.write a v).read a = v := by simp [Memory.read_write m h a a v ha]

theorem Memory.read_write_ne (m : Memory) (h : m.wf = true) (a b : Nat) (v : Byte) (hb : b ≠ a) :
    (m.write a v).read b = m.read b := by
  by_cases ha : a < Config.memSize
  · simp [Memory.read_write m h a b v ha, hb]
  · simp [Memory.write, ha]

theorem Memory.writeList_wf (m : Memory) (h : m.wf = true) (a : Nat) (bs : List Byte) :
    (m.writeList a bs).wf = true := by
  induction bs generalizing m a with
  | nil => exact h
  | cons b bs ih => exact ih _ (m.write_wf h a b) _

/-- A copied list stands at its addresses, and every other byte is as before. -/
theorem Memory.read_writeList (m : Memory) (h : m.wf = true) (a : Nat) (bs : List Byte)
    (hfit : a + bs.length ≤ Config.memSize) (b : Nat) :
    (m.writeList a bs).read b =
      if hb : a ≤ b ∧ b < a + bs.length then bs[b - a]'(by omega) else m.read b := by
  induction bs generalizing m a with
  | nil => simp [Memory.writeList]
  | cons c bs ih =>
    simp only [List.length_cons] at hfit ⊢
    rw [Memory.writeList, ih _ (m.write_wf h a c) _ (by omega)]
    by_cases hba : b = a
    · subst hba
      simp [Memory.read_write_same m h b c (by omega)]
    · rw [Memory.read_write_ne m h a b c hba]
      by_cases hin : a + 1 ≤ b ∧ b < a + 1 + bs.length
      · have h1 : a ≤ b ∧ b < a + (bs.length + 1) := by omega
        have h2 : b - a = (b - (a + 1)) + 1 := by omega
        simp only [hin, and_self, dite_true, h1]
        simp [h2]
      · rw [dif_neg hin, dif_neg (by omega)]

theorem Memory.writeWord_wf (m : Memory) (h : m.wf = true) (a : Nat) (w : Word) :
    (m.writeWord a w).wf = true 
    := Memory.write_wf _ (Memory.write_wf m h _ _) _ _

theorem Memory.read_empty (a : Nat) : (Memory.mk []).read a = background a := rfl

/-- Two lists in canonical form that read alike are the same list. -/
theorem cells_ext {lo : Nat} {l k : List Host.Cell} (hl : cellsWf lo l = true)
    (hk : cellsWf lo k = true) (h : ∀ a, a < Config.memSize → lookupCell a l = lookupCell a k) :
    l = k := by
  induction l generalizing lo k with
  | nil =>
    cases k with
    | nil => rfl
    | cons c k =>
      obtain ⟨b, w⟩ := c
      have hk' := cellsWf_cons.1 hk
      exact absurd (h b hk'.2.1) (by simpa [lookupCell] using fun e => hk'.2.2.1 e.symm)
  | cons c l ih =>
    obtain ⟨b, w⟩ := c
    have hl' := cellsWf_cons.1 hl
    cases k with
    | nil => exact absurd (h b hl'.2.1) (by simpa [lookupCell] using hl'.2.2.1)
    | cons d k =>
      obtain ⟨e, u⟩ := d
      have hk' := cellsWf_cons.1 hk
      have hbe : b = e := by
        rcases Nat.lt_trichotomy b e with hlt | heq | hgt
        · exact absurd (h b hl'.2.1) (by simpa [lookupCell, hlt] using hl'.2.2.1)
        · exact heq
        · exact absurd (h e hk'.2.1) (by
            simpa [lookupCell, hgt] using fun x => hk'.2.2.1 x.symm)
      subst hbe
      have hwu : w = u := by simpa [lookupCell] using h b hl'.2.1
      subst hwu
      have hrest : ∀ a, a < Config.memSize → lookupCell a l = lookupCell a k := by
        intro a ha
        by_cases hab : a ≤ b
        · rw [lookupCell_below hl'.2.2.2 (by omega), lookupCell_below hk'.2.2.2 (by omega)]
        · have := h a ha
          simpa [lookupCell, show ¬ a < b by omega, show ¬ a = b by omega] using this
      rw [ih hl'.2.2.2 hk'.2.2.2 hrest]

theorem State.setMem_mem_wf (s : State) (h : s.mem.wf = true) (a : Nat) (b : Byte) :
    (s.setMem a b).mem.wf = true := s.mem.write_wf h a b

end Sys2Proof.Machine
end

