-- ==== Sys2Proof/Laws/State.lean ====
section
/-! SUPPORT. What each field is after each update of the state, and reading back what an accessor wrote. -/

namespace Sys2Proof.Machine

variable (s : State)

/-! ### `State.setV` -/

@[simp] theorem State.setV_v (r : Reg) (b : Byte) : (s.setV r b).v = s.v.set r b := rfl
@[simp] theorem State.setV_i (r : Reg) (b : Byte) : (s.setV r b).i = s.i := rfl
@[simp] theorem State.setV_pc (r : Reg) (b : Byte) : (s.setV r b).pc = s.pc := rfl
@[simp] theorem State.setV_depth (r : Reg) (b : Byte) : (s.setV r b).depth = s.depth := rfl
@[simp] theorem State.setV_stack (r : Reg) (b : Byte) : (s.setV r b).stack = s.stack := rfl
@[simp] theorem State.setV_dt (r : Reg) (b : Byte) : (s.setV r b).dt = s.dt := rfl
@[simp] theorem State.setV_st (r : Reg) (b : Byte) : (s.setV r b).st = s.st := rfl
@[simp] theorem State.setV_mem (r : Reg) (b : Byte) : (s.setV r b).mem = s.mem := rfl
@[simp] theorem State.setV_disp (r : Reg) (b : Byte) : (s.setV r b).disp = s.disp := rfl
@[simp] theorem State.setV_keys (r : Reg) (b : Byte) : (s.setV r b).keys = s.keys := rfl
@[simp] theorem State.setV_err (r : Reg) (b : Byte) : (s.setV r b).err = s.err := rfl
@[simp] theorem State.setV_draws (r : Reg) (b : Byte) : (s.setV r b).draws = s.draws := rfl

/-! ### `State.setPc` -/

@[simp] theorem State.setPc_v (a : Word) : (s.setPc a).v = s.v := rfl
@[simp] theorem State.setPc_i (a : Word) : (s.setPc a).i = s.i := rfl
@[simp] theorem State.setPc_pc (a : Word) : (s.setPc a).pc = a := rfl
@[simp] theorem State.setPc_depth (a : Word) : (s.setPc a).depth = s.depth := rfl
@[simp] theorem State.setPc_stack (a : Word) : (s.setPc a).stack = s.stack := rfl
@[simp] theorem State.setPc_dt (a : Word) : (s.setPc a).dt = s.dt := rfl
@[simp] theorem State.setPc_st (a : Word) : (s.setPc a).st = s.st := rfl
@[simp] theorem State.setPc_mem (a : Word) : (s.setPc a).mem = s.mem := rfl
@[simp] theorem State.setPc_disp (a : Word) : (s.setPc a).disp = s.disp := rfl
@[simp] theorem State.setPc_keys (a : Word) : (s.setPc a).keys = s.keys := rfl
@[simp] theorem State.setPc_err (a : Word) : (s.setPc a).err = s.err := rfl
@[simp] theorem State.setPc_draws (a : Word) : (s.setPc a).draws = s.draws := rfl

/-! ### `State.setI` -/

@[simp] theorem State.setI_v (a : Word) : (s.setI a).v = s.v := rfl
@[simp] theorem State.setI_i (a : Word) : (s.setI a).i = a := rfl
@[simp] theorem State.setI_pc (a : Word) : (s.setI a).pc = s.pc := rfl
@[simp] theorem State.setI_depth (a : Word) : (s.setI a).depth = s.depth := rfl
@[simp] theorem State.setI_stack (a : Word) : (s.setI a).stack = s.stack := rfl
@[simp] theorem State.setI_dt (a : Word) : (s.setI a).dt = s.dt := rfl
@[simp] theorem State.setI_st (a : Word) : (s.setI a).st = s.st := rfl
@[simp] theorem State.setI_mem (a : Word) : (s.setI a).mem = s.mem := rfl
@[simp] theorem State.setI_disp (a : Word) : (s.setI a).disp = s.disp := rfl
@[simp] theorem State.setI_keys (a : Word) : (s.setI a).keys = s.keys := rfl
@[simp] theorem State.setI_err (a : Word) : (s.setI a).err = s.err := rfl
@[simp] theorem State.setI_draws (a : Word) : (s.setI a).draws = s.draws := rfl

/-! ### `State.setDt` -/

@[simp] theorem State.setDt_v (b : Byte) : (s.setDt b).v = s.v := rfl
@[simp] theorem State.setDt_i (b : Byte) : (s.setDt b).i = s.i := rfl
@[simp] theorem State.setDt_pc (b : Byte) : (s.setDt b).pc = s.pc := rfl
@[simp] theorem State.setDt_depth (b : Byte) : (s.setDt b).depth = s.depth := rfl
@[simp] theorem State.setDt_stack (b : Byte) : (s.setDt b).stack = s.stack := rfl
@[simp] theorem State.setDt_dt (b : Byte) : (s.setDt b).dt = b := rfl
@[simp] theorem State.setDt_st (b : Byte) : (s.setDt b).st = s.st := rfl
@[simp] theorem State.setDt_mem (b : Byte) : (s.setDt b).mem = s.mem := rfl
@[simp] theorem State.setDt_disp (b : Byte) : (s.setDt b).disp = s.disp := rfl
@[simp] theorem State.setDt_keys (b : Byte) : (s.setDt b).keys = s.keys := rfl
@[simp] theorem State.setDt_err (b : Byte) : (s.setDt b).err = s.err := rfl
@[simp] theorem State.setDt_draws (b : Byte) : (s.setDt b).draws = s.draws := rfl

/-! ### `State.setSt` -/

@[simp] theorem State.setSt_v (b : Byte) : (s.setSt b).v = s.v := rfl
@[simp] theorem State.setSt_i (b : Byte) : (s.setSt b).i = s.i := rfl
@[simp] theorem State.setSt_pc (b : Byte) : (s.setSt b).pc = s.pc := rfl
@[simp] theorem State.setSt_depth (b : Byte) : (s.setSt b).depth = s.depth := rfl
@[simp] theorem State.setSt_stack (b : Byte) : (s.setSt b).stack = s.stack := rfl
@[simp] theorem State.setSt_dt (b : Byte) : (s.setSt b).dt = s.dt := rfl
@[simp] theorem State.setSt_st (b : Byte) : (s.setSt b).st = b := rfl
@[simp] theorem State.setSt_mem (b : Byte) : (s.setSt b).mem = s.mem := rfl
@[simp] theorem State.setSt_disp (b : Byte) : (s.setSt b).disp = s.disp := rfl
@[simp] theorem State.setSt_keys (b : Byte) : (s.setSt b).keys = s.keys := rfl
@[simp] theorem State.setSt_err (b : Byte) : (s.setSt b).err = s.err := rfl
@[simp] theorem State.setSt_draws (b : Byte) : (s.setSt b).draws = s.draws := rfl

/-! ### `State.setMem` -/

@[simp] theorem State.setMem_v (a : Nat) (b : Byte) : (s.setMem a b).v = s.v := rfl
@[simp] theorem State.setMem_i (a : Nat) (b : Byte) : (s.setMem a b).i = s.i := rfl
@[simp] theorem State.setMem_pc (a : Nat) (b : Byte) : (s.setMem a b).pc = s.pc := rfl
@[simp] theorem State.setMem_depth (a : Nat) (b : Byte) : (s.setMem a b).depth = s.depth := rfl
@[simp] theorem State.setMem_stack (a : Nat) (b : Byte) : (s.setMem a b).stack = s.stack := rfl
@[simp] theorem State.setMem_dt (a : Nat) (b : Byte) : (s.setMem a b).dt = s.dt := rfl
@[simp] theorem State.setMem_st (a : Nat) (b : Byte) : (s.setMem a b).st = s.st := rfl
@[simp] theorem State.setMem_mem (a : Nat) (b : Byte) : (s.setMem a b).mem = s.mem.write a b := rfl
@[simp] theorem State.setMem_disp (a : Nat) (b : Byte) : (s.setMem a b).disp = s.disp := rfl
@[simp] theorem State.setMem_keys (a : Nat) (b : Byte) : (s.setMem a b).keys = s.keys := rfl
@[simp] theorem State.setMem_err (a : Nat) (b : Byte) : (s.setMem a b).err = s.err := rfl
@[simp] theorem State.setMem_draws (a : Nat) (b : Byte) : (s.setMem a b).draws = s.draws := rfl

/-! ### `State.advance` -/

@[simp] theorem State.advance_v : s.advance.v = s.v := rfl
@[simp] theorem State.advance_i : s.advance.i = s.i := rfl
@[simp] theorem State.advance_pc : s.advance.pc = s.pc + 2 := rfl
@[simp] theorem State.advance_depth : s.advance.depth = s.depth := rfl
@[simp] theorem State.advance_stack : s.advance.stack = s.stack := rfl
@[simp] theorem State.advance_dt : s.advance.dt = s.dt := rfl
@[simp] theorem State.advance_st : s.advance.st = s.st := rfl
@[simp] theorem State.advance_mem : s.advance.mem = s.mem := rfl
@[simp] theorem State.advance_disp : s.advance.disp = s.disp := rfl
@[simp] theorem State.advance_keys : s.advance.keys = s.keys := rfl
@[simp] theorem State.advance_err : s.advance.err = s.err := rfl
@[simp] theorem State.advance_draws : s.advance.draws = s.draws := rfl

/-! ### `State.skipIf` -/

@[simp] theorem State.skipIf_v (c : Bool) : (s.skipIf c).v = s.v := rfl
@[simp] theorem State.skipIf_i (c : Bool) : (s.skipIf c).i = s.i := rfl
@[simp] theorem State.skipIf_pc (c : Bool) : (s.skipIf c).pc = (if c then s.npc + 2 else s.npc) := rfl
@[simp] theorem State.skipIf_depth (c : Bool) : (s.skipIf c).depth = s.depth := rfl
@[simp] theorem State.skipIf_stack (c : Bool) : (s.skipIf c).stack = s.stack := rfl
@[simp] theorem State.skipIf_dt (c : Bool) : (s.skipIf c).dt = s.dt := rfl
@[simp] theorem State.skipIf_st (c : Bool) : (s.skipIf c).st = s.st := rfl
@[simp] theorem State.skipIf_mem (c : Bool) : (s.skipIf c).mem = s.mem := rfl
@[simp] theorem State.skipIf_disp (c : Bool) : (s.skipIf c).disp = s.disp := rfl
@[simp] theorem State.skipIf_keys (c : Bool) : (s.skipIf c).keys = s.keys := rfl
@[simp] theorem State.skipIf_err (c : Bool) : (s.skipIf c).err = s.err := rfl
@[simp] theorem State.skipIf_draws (c : Bool) : (s.skipIf c).draws = s.draws := rfl

/-! ### `State.push` -/

@[simp] theorem State.push_v (h : s.depth.val < 16) (a : Word) : (s.push h a).v = s.v := rfl
@[simp] theorem State.push_i (h : s.depth.val < 16) (a : Word) : (s.push h a).i = s.i := rfl
@[simp] theorem State.push_pc (h : s.depth.val < 16) (a : Word) : (s.push h a).pc = s.pc := rfl
@[simp] theorem State.push_depth (h : s.depth.val < 16) (a : Word) : (s.push h a).depth = ⟨s.depth.val + 1, by omega⟩ := rfl
@[simp] theorem State.push_stack (h : s.depth.val < 16) (a : Word) : (s.push h a).stack = s.stack.set s.depth.val a := rfl
@[simp] theorem State.push_dt (h : s.depth.val < 16) (a : Word) : (s.push h a).dt = s.dt := rfl
@[simp] theorem State.push_st (h : s.depth.val < 16) (a : Word) : (s.push h a).st = s.st := rfl
@[simp] theorem State.push_mem (h : s.depth.val < 16) (a : Word) : (s.push h a).mem = s.mem := rfl
@[simp] theorem State.push_disp (h : s.depth.val < 16) (a : Word) : (s.push h a).disp = s.disp := rfl
@[simp] theorem State.push_keys (h : s.depth.val < 16) (a : Word) : (s.push h a).keys = s.keys := rfl
@[simp] theorem State.push_err (h : s.depth.val < 16) (a : Word) : (s.push h a).err = s.err := rfl
@[simp] theorem State.push_draws (h : s.depth.val < 16) (a : Word) : (s.push h a).draws = s.draws := rfl

/-! ### `State.pop` -/

@[simp] theorem State.pop_v : s.pop.v = s.v := rfl
@[simp] theorem State.pop_i : s.pop.i = s.i := rfl
@[simp] theorem State.pop_pc : s.pop.pc = s.pc := rfl
@[simp] theorem State.pop_depth : s.pop.depth = ⟨s.depth.val - 1, by omega⟩ := rfl
@[simp] theorem State.pop_stack : s.pop.stack = s.stack := rfl
@[simp] theorem State.pop_dt : s.pop.dt = s.dt := rfl
@[simp] theorem State.pop_st : s.pop.st = s.st := rfl
@[simp] theorem State.pop_mem : s.pop.mem = s.mem := rfl
@[simp] theorem State.pop_disp : s.pop.disp = s.disp := rfl
@[simp] theorem State.pop_keys : s.pop.keys = s.keys := rfl
@[simp] theorem State.pop_err : s.pop.err = s.err := rfl
@[simp] theorem State.pop_draws : s.pop.draws = s.draws := rfl

/-! ### `State.randByte` -/

@[simp] theorem State.randByte_v : s.randByte.2.v = s.v := rfl
@[simp] theorem State.randByte_i : s.randByte.2.i = s.i := rfl
@[simp] theorem State.randByte_pc : s.randByte.2.pc = s.pc := rfl
@[simp] theorem State.randByte_depth : s.randByte.2.depth = s.depth := rfl
@[simp] theorem State.randByte_stack : s.randByte.2.stack = s.stack := rfl
@[simp] theorem State.randByte_dt : s.randByte.2.dt = s.dt := rfl
@[simp] theorem State.randByte_st : s.randByte.2.st = s.st := rfl
@[simp] theorem State.randByte_mem : s.randByte.2.mem = s.mem := rfl
@[simp] theorem State.randByte_disp : s.randByte.2.disp = s.disp := rfl
@[simp] theorem State.randByte_keys : s.randByte.2.keys = s.keys := rfl
@[simp] theorem State.randByte_err : s.randByte.2.err = s.err := rfl
@[simp] theorem State.randByte_draws : s.randByte.2.draws = s.draws + 1 := rfl

/-! ### `raise` -/

@[simp] theorem State.raise_v (e : ErrKind) (w : Word) (a : Nat) : (raise e w a s).v = s.v := rfl
@[simp] theorem State.raise_i (e : ErrKind) (w : Word) (a : Nat) : (raise e w a s).i = s.i := rfl
@[simp] theorem State.raise_pc (e : ErrKind) (w : Word) (a : Nat) : (raise e w a s).pc = s.pc := rfl
@[simp] theorem State.raise_depth (e : ErrKind) (w : Word) (a : Nat) : (raise e w a s).depth = s.depth := rfl
@[simp] theorem State.raise_stack (e : ErrKind) (w : Word) (a : Nat) : (raise e w a s).stack = s.stack := rfl
@[simp] theorem State.raise_dt (e : ErrKind) (w : Word) (a : Nat) : (raise e w a s).dt = s.dt := rfl
@[simp] theorem State.raise_st (e : ErrKind) (w : Word) (a : Nat) : (raise e w a s).st = s.st := rfl
@[simp] theorem State.raise_mem (e : ErrKind) (w : Word) (a : Nat) : (raise e w a s).mem = s.mem := rfl
@[simp] theorem State.raise_disp (e : ErrKind) (w : Word) (a : Nat) : (raise e w a s).disp = s.disp := rfl
@[simp] theorem State.raise_keys (e : ErrKind) (w : Word) (a : Nat) : (raise e w a s).keys = s.keys := rfl
@[simp] theorem State.raise_err (e : ErrKind) (w : Word) (a : Nat) : (raise e w a s).err = ⟨true, e.code, w, s.pc, BitVec.ofNat 16 a⟩ := rfl
@[simp] theorem State.raise_draws (e : ErrKind) (w : Word) (a : Nat) : (raise e w a s).draws = s.draws := rfl

/-! ### Accessors -/

@[simp] theorem State.getV_setV_same (r : Reg) (b : Byte) : (s.setV r b).getV r = b := by
  simp [State.getV]

theorem State.getV_setV_ne (r q : Reg) (b : Byte) (h : q ≠ r) : (s.setV r b).getV q = s.getV q := by
  have h' : (r : Nat) ≠ (q : Nat) := fun e => h (Fin.ext e.symm)
  simp [State.getV, Vector.getElem_set_ne _ _ h']

/-- Writing back what a register holds changes nothing. -/
theorem State.setV_getV (r : Reg) : s.setV r (s.getV r) = s := by
  simp [State.setV, State.getV]

theorem State.getV_setV (r q : Reg) (b : Byte) :
    (s.setV r b).getV q = if q = r then b else s.getV q := by
  split
  · next h => subst h; exact s.getV_setV_same q b
  · next h => exact s.getV_setV_ne r q b h

theorem State.getV_congr (t : State) (h : t.v = s.v) (r : Reg) : t.getV r = s.getV r := by
  simp [State.getV, h]

@[simp] theorem State.getStack_push_same (h : s.depth.val < 16) (a : Word) :
    (s.push h a).getStack ⟨s.depth.val, h⟩ = a := by
  simp [State.getStack]

theorem State.getStack_push_ne (h : s.depth.val < 16) (a : Word) (k : Fin 16)
    (hk : k.val ≠ s.depth.val) : (s.push h a).getStack k = s.getStack k := by
  simp [State.getStack, Vector.getElem_set_ne _ _ (Ne.symm hk)]

theorem Display.get_toggle_same (d : Display) (y : Fin 32) (x : Fin 64) :
    (d.toggle y x).get y x = !(d.get y x) := by
  simp [Display.get, Display.toggle]

theorem Display.get_toggle_ne (d : Display) (y y' : Fin 32) (x x' : Fin 64)
    (h : ¬ (y' = y ∧ x' = x)) : (d.toggle y x).get y' x' = d.get y' x' := by
  unfold Display.get Display.toggle
  by_cases hy : y' = y
  · subst hy
    have hx : (x : Nat) ≠ (x' : Nat) := fun e => h ⟨rfl, Fin.ext e.symm⟩
    simp [Vector.getElem_set_ne _ _ hx]
  · have hy' : (y : Nat) ≠ (y' : Nat) := fun e => hy (Fin.ext e.symm)
    simp [Vector.getElem_set_ne _ _ hy']

@[simp] theorem State.getV_advance (r : Reg) : s.advance.getV r = s.getV r := rfl

@[simp] theorem State.getV_setPc (a : Word) (r : Reg) : (s.setPc a).getV r = s.getV r := rfl

@[simp] theorem State.getV_skipIf (c : Bool) (r : Reg) : (s.skipIf c).getV r = s.getV r := rfl

@[simp] theorem State.getStack_setPc (a : Word) (k : Fin 16) :
    (s.setPc a).getStack k = s.getStack k := rfl

/-- `npc` is `PC + 2` (R52). -/
@[simp] theorem State.npc_eq : s.npc = s.pc + 2 := rfl

@[simp] theorem State.halted_eq : s.halted = s.err.valid := rfl

end Sys2Proof.Machine
end

