-- ==== Sys2Proof/Laws/Ops.lean ====
section
/-! SUPPORT. What each shared operation answers: the range checks, the fetch, the checked end of an
instruction, raising an error, the loops of `LD Vx, [I]` and the three stores of `LD B, Vx`. -/

namespace Sys2Proof.Machine

/-! ### Checks -/

theorem checkRange_read_eq_none {a k : Nat} : checkRange a k .read = none ↔ a + k ≤ 0xFFF := by
  simp [checkRange]

theorem checkRange_write_eq_none {a k : Nat} :
    checkRange a k .write = none ↔ 0x200 ≤ a ∧ a + k ≤ 0xFFF := by
  unfold checkRange
  split
  · next h => simp only [Config.progBase] at h; simp; omega
  · next h => simp only [Config.progBase, true_and] at h; split <;> simp <;> omega

theorem checkRange_read_past_end {a k : Nat} (h : 0xFFF < a + k) :
    checkRange a k .read = some (.memoryOutOfBounds, max a 0x1000) := by
  simp [checkRange, h]

theorem checkRange_write_past_end {a k : Nat} (ha : 0x200 ≤ a) (h : 0xFFF < a + k) :
    checkRange a k .write = some (.memoryOutOfBounds, max a 0x1000) := by
  simp [checkRange, h, Config.progBase, show ¬ a < 0x200 by omega]

theorem checkRange_write_below {a k : Nat} (ha : a < 0x200) :
    checkRange a k .write = some (.reservedRegionWrite, a) := by
  simp [checkRange, Config.progBase, ha]

/-- Every error a range check can name: one of two kinds. -/
theorem checkRange_kind {a k : Nat} {acc : Access} {e : ErrKind} {addr : Nat}
    (h : checkRange a k acc = some (e, addr)) :
    e = .memoryOutOfBounds ∨ e = .reservedRegionWrite := by
  unfold checkRange at h
  split at h
  · simp at h; exact .inr h.1.symm
  · split at h
    · simp at h; exact .inl h.1.symm
    · simp at h

/-- A read check names one kind of error only. -/
theorem checkRange_read_kind {a k : Nat} {e : ErrKind} {addr : Nat}
    (h : checkRange a k .read = some (e, addr)) : e = .memoryOutOfBounds := by
  simp [checkRange] at h
  exact h.2.1.symm

theorem checkSprite_zero (s : State) : checkSprite s 0 = none := rfl

theorem checkSprite_eq_none {s : State} {n : Nat} :
    checkSprite s n = none ↔ n = 0 ∨ InsideMemory s n := by
  unfold checkSprite InsideMemory
  split
  · simp [*]
  · next h =>
    rw [checkRange_read_eq_none]
    omega

theorem checkSprite_kind {s : State} {n : Nat} {e : ErrKind} {addr : Nat}
    (h : checkSprite s n = some (e, addr)) : e = .memoryOutOfBounds := by
  unfold checkSprite at h
  split at h
  · simp at h
  · exact checkRange_read_kind h

theorem fetch_ok {m : Memory} {a : Nat} (h : a ≤ 0xFFE) : fetch m a = .ok (m.read a, m.read (a + 1)) := by
  simp [fetch, show ¬ a > 0xFFE by omega]

theorem fetch_error {m : Memory} {a : Nat} (h : 0xFFE < a) : fetch m a = .error (max a 0x1000) := by
  simp [fetch, h]

/-- What a checked instruction answers: always a next state, its own or the error's. -/
theorem checked_cases (w : Word) (c : Option (ErrKind × Nat)) (s d : State) :
    (c = none ∧ checked w c s d = .next d) ∨
    (∃ e addr, c = some (e, addr) ∧ checked w c s d = .next (raise e w addr s)) := by
  cases c with
  | none => exact .inl ⟨rfl, rfl⟩
  | some p => exact .inr ⟨p.1, p.2, rfl, rfl⟩

theorem checked_none (w : Word) (s d : State) : checked w none s d = .next d := rfl

theorem checked_some (w : Word) (e : ErrKind) (addr : Nat) (s d : State) :
    checked w (some (e, addr)) s d = .next (raise e w addr s) := rfl

theorem keyOperand_of_lt {b : Byte} (h : b.toNat < 16) : keyOperand b = some ⟨b.toNat, h⟩ := by
  simp [keyOperand, h]

theorem keyOperand_of_ge {b : Byte} (h : 16 ≤ b.toNat) : keyOperand b = none := by
  simp [keyOperand, show ¬ b.toNat < 16 by omega]

/-! ### Frames -/

theorem Element.same_refl (e : Element) (s : State) : e.same s s := by cases e <;> rfl

theorem OnlyChanges.refl (W : Element → Prop) (s : State) : OnlyChanges W s s :=
  fun e _ => e.same_refl s

theorem OnlyChanges.mono {W W' : Element → Prop} {s t : State} (h : OnlyChanges W s t)
    (hW : ∀ e, W e → W' e) : OnlyChanges W' s t := fun e he => h e fun x => he (hW e x)

theorem Element.same_trans {e : Element} {s t u : State} (h : e.same s t) (h' : e.same t u) :
    e.same s u := by
  cases e <;> exact Eq.trans h' h

theorem OnlyChanges.trans {W W' : Element → Prop} {s t u : State} (h : OnlyChanges W s t)
    (h' : OnlyChanges W' t u) : OnlyChanges (fun e => W e ∨ W' e) s u := by
  intro e he
  simp only [not_or] at he
  exact Element.same_trans (h e he.1) (h' e he.2)

/-- Raising an error changes `ERR` alone (R124). -/
theorem raise_onlyChanges (k : ErrKind) (w : Word) (addr : Nat) (s : State) :
    OnlyChanges (· = .err) s (raise k w addr s) := by
  intro e he
  cases e <;> first | exact absurd rfl he | rfl

/-- Writing `PC` changes `PC` alone; so do `advance` and `skipIf`, which write it. -/
theorem setPc_onlyChanges (s : State) (a : Word) : OnlyChanges (· = .pc) s (s.setPc a) := by
  intro e he
  cases e <;> first | exact absurd rfl he | rfl

/-- Writing a register changes that register alone. -/
theorem setV_onlyChanges (s : State) (r : Reg) (b : Byte) :
    OnlyChanges (· = .v r) s (s.setV r b) := by
  intro e he
  cases e
  case v q => exact s.getV_setV_ne r q b fun h => he (by rw [h])
  all_goals rfl

/-- The end of an instruction that writes one register. -/
theorem setV_advance_onlyChanges (s : State) (r : Reg) (b : Byte) :
    OnlyChanges (fun e => e = .v r ∨ e = .pc) s (s.setV r b).advance :=
  (setV_onlyChanges s r b).trans (setPc_onlyChanges _ _)

/-- Drawing a random byte moves the model's counter alone (R5; log 2). -/
theorem randByte_onlyChanges (s : State) : OnlyChanges (· = .draws) s s.randByte.2 := by
  intro e he
  cases e <;> first | exact absurd rfl he | rfl

/-- Flag first, result second (R87): the result, and the flag unless the result overwrote it. -/
theorem setFlagThenResult_result (s : State) (flag : Bool) (x : Reg) (b : Byte) :
    (s.setFlagThenResult flag x b).getV x = b := State.getV_setV_same _ x b

theorem setFlagThenResult_flag (s : State) (flag : Bool) (x : Reg) (b : Byte) (h : x ≠ 15) :
    (s.setFlagThenResult flag x b).getV 15 = flagByte flag :=
  (State.getV_setV_ne _ x 15 b (Ne.symm h)).trans (State.getV_setV_same _ vf _)

theorem setFlagThenResult_onlyChanges (s : State) (flag : Bool) (x : Reg) (b : Byte) :
    OnlyChanges (fun e => e = .v x ∨ e = .v 15) s (s.setFlagThenResult flag x b) :=
  ((setV_onlyChanges s vf (flagByte flag)).trans (setV_onlyChanges _ x b)).mono
    fun _ h => h.symm

/-! ### Operands and flags -/

theorem addrOperand_toNat (nnn : Addr) : (addrOperand nnn).toNat = nnn.toNat := by
  have := nnn.isLt
  simp [addrOperand]; omega

theorem glyphAddr_toNat (b : Byte) : (glyphAddr b).toNat = 5 * b.toNat := by
  have := b.isLt
  simp [glyphAddr]; omega

theorem sumByte_toNat (a b : Byte) : (sumByte a b).toNat = (a.toNat + b.toNat) % 256 := by
  simp [sumByte]

/-- Adding 0 leaves a byte (R81). -/
theorem sumByte_zero (a : Byte) : sumByte a 0 = a := by simp [sumByte]

theorem diffByte_toNat (a b : Byte) : (diffByte a b).toNat = (a.toNat + 256 - b.toNat) % 256 := by
  have := a.isLt
  have := b.isLt
  simp only [diffByte, BitVec.toNat_ofInt]
  omega

theorem carry_eq (a b : Byte) : carry a b = true ↔ 256 ≤ a.toNat + b.toNat := by simp [carry]

theorem notBorrow_eq (a b : Byte) : notBorrow a b = true ↔ b.toNat ≤ a.toNat := by
  simp [notBorrow]

/-! ### Loops over registers and memory -/

/-- `loadRegs` writes the registers below `count` and nothing else (R93). -/
theorem loadRegs_spec (s : State) (count : Nat) (h : count ≤ 16) :
    (∀ r : Reg, (loadRegs s count).getV r =
      if r.val < count then s.mem.read (s.effAddr r.val) else s.getV r) ∧
    loadRegs s count = { s with v := (loadRegs s count).v } := by
  induction count with
  | zero => exact ⟨fun r => by simp [loadRegs], rfl⟩
  | succ j ih =>
    obtain ⟨hv, hs⟩ := ih (by omega)
    refine ⟨fun r => ?_, ?_⟩
    · have hj : (Fin.ofNat 16 j).val = j := by simp; omega
      rw [loadRegs, State.getV_setV, hv r]
      by_cases hr : r.val = j
      · subst hr; simp
      · have : r ≠ Fin.ofNat 16 j := fun e => hr (by rw [e, hj])
        simp only [this, if_false]
        by_cases hlt : r.val < j
        · simp [hlt, show r.val < j + 1 by omega]
        · simp [hlt, show ¬ r.val < j + 1 by omega]
    · conv_lhs => rw [loadRegs, hs]
      rfl

/-- The three stores of `LD B, Vx`: the digits at `I`, `I + 1`, `I + 2`, every other byte as before,
and every other element untouched (R92). -/
theorem storeDigits_spec (b : Byte) (s : State) (hm : s.mem.wf = true) (hfit : s.effAddr 2 < 0x1000) :
    (storeDigits b s).mem.read (s.effAddr 0) = hundreds b ∧
    (storeDigits b s).mem.read (s.effAddr 1) = tens b ∧
    (storeDigits b s).mem.read (s.effAddr 2) = ones b ∧
    (∀ a, a ≠ s.effAddr 0 → a ≠ s.effAddr 1 → a ≠ s.effAddr 2 →
      (storeDigits b s).mem.read a = s.mem.read a) ∧
    storeDigits b s = { s with mem := (storeDigits b s).mem } := by
  simp only [State.effAddr] at *
  have h0 := s.setMem_mem_wf hm (s.i.toNat + 0) (hundreds b)
  have h1 := (s.setMem (s.i.toNat + 0) (hundreds b)).setMem_mem_wf h0 (s.i.toNat + 1) (tens b)
  have key : ∀ a, (storeDigits b s).mem.read a =
      if a = s.i.toNat + 2 then ones b else if a = s.i.toNat + 1 then tens b
      else if a = s.i.toNat + 0 then hundreds b else s.mem.read a := by
    intro a
    simp only [storeDigits, State.effAddr, State.setMem_mem] at *
    rw [Memory.read_write _ h1 _ _ _ (by simp only [Config.memSize]; omega),
      Memory.read_write _ h0 _ _ _ (by simp only [Config.memSize]; omega),
      Memory.read_write _ hm _ _ _ (by simp only [Config.memSize]; omega)]
  refine ⟨?_, ?_, ?_, ?_, rfl⟩
  · rw [key]; simp
  · rw [key]; simp
  · rw [key]; simp
  · intro a ha0 ha1 ha2
    rw [key]; simp at ha0; simp [ha0, ha1, ha2]

theorem storeDigits_wf (b : Byte) (s : State) (hm : s.mem.wf = true) :
    (storeDigits b s).mem.wf = true :=
  State.setMem_mem_wf _ (State.setMem_mem_wf _ (State.setMem_mem_wf _ hm _ _) _ _) _ _

theorem hundreds_toNat (b : Byte) : (hundreds b).toNat = b.toNat / 100 := by
  have := b.isLt
  simp [hundreds]; omega

theorem tens_toNat (b : Byte) : (tens b).toNat = b.toNat / 10 % 10 := by
  simp [tens]; omega

theorem ones_toNat (b : Byte) : (ones b).toNat = b.toNat % 10 := by
  simp [ones]; omega

end Sys2Proof.Machine
end

