-- ==== Sys2Proof/Laws/Draw.lean ====
section
/-! SUPPORT. What a draw does to the canvas: it toggles exactly the pixels the sprite covers, each
once, and the collision flag says whether one of them was on (R100 to R104). -/

namespace Sys2Proof.Machine

/-- From `c` to `c'` exactly the pixels of `P` were toggled, each once, and a collision is noted when
one of them was on. -/
structure Drawn (P : Fin 32 → Fin 64 → Prop) (c c' : Canvas) : Prop where
  toggled : ∀ py px, P py px → c'.disp.get py px = !c.disp.get py px
  kept : ∀ py px, ¬ P py px → c'.disp.get py px = c.disp.get py px
  collision : c'.collision = true ↔
    c.collision = true ∨ ∃ py px, P py px ∧ c.disp.get py px = true

theorem Drawn.none {P : Fin 32 → Fin 64 → Prop} (c : Canvas) (h : ∀ py px, ¬ P py px) :
    Drawn P c c :=
  ⟨fun py px hp => absurd hp (h py px), fun _ _ _ => rfl, by simp [h]⟩

theorem Drawn.congr {P Q : Fin 32 → Fin 64 → Prop} {c c' : Canvas} (h : Drawn P c c')
    (hPQ : ∀ py px, P py px ↔ Q py px) : Drawn Q c c' := by
  have : P = Q := funext fun py => funext fun px => propext (hPQ py px)
  exact this ▸ h

/-- Two parts of a sprite that share no pixel, drawn one after the other. -/
theorem Drawn.comp {P Q : Fin 32 → Fin 64 → Prop} {c c' c'' : Canvas} (h : Drawn P c c')
    (h' : Drawn Q c' c'') (hd : ∀ py px, P py px → ¬ Q py px) :
    Drawn (fun py px => P py px ∨ Q py px) c c'' where
  toggled py px hpq := by
    rcases hpq with hp | hq
    · rw [h'.kept py px (hd py px hp), h.toggled py px hp]
    · rw [h'.toggled py px hq, h.kept py px fun hp => hd py px hp hq]
  kept py px hpq := by
    simp only [not_or] at hpq
    rw [h'.kept py px hpq.2, h.kept py px hpq.1]
  collision := by
    rw [h'.collision, h.collision, or_assoc]
    refine or_congr_right ⟨?_, ?_⟩
    · rintro (⟨py, px, hp, ho⟩ | ⟨py, px, hq, ho⟩)
      · exact ⟨py, px, .inl hp, ho⟩
      · exact ⟨py, px, .inr hq, by rwa [h.kept py px fun hp => hd py px hp hq] at ho⟩
    · rintro ⟨py, px, hp | hq, ho⟩
      · exact .inl ⟨py, px, hp, ho⟩
      · exact .inr ⟨py, px, hq, by rwa [h.kept py px fun hp => hd py px hp hq]⟩

theorem drawPixel_drawn (X Y : Nat) (c : Canvas) :
    Drawn (fun py px => px.val = X ∧ py.val = Y) c (drawPixel X Y c) := by
  unfold drawPixel
  split
  · next h =>
    refine ⟨fun py px hp => ?_, fun py px hp => ?_, ?_⟩
    · obtain ⟨rfl, rfl⟩ := hp
      exact Display.get_toggle_same _ _ _
    · exact Display.get_toggle_ne _ _ _ _ _ fun e => hp ⟨congrArg Fin.val e.2, congrArg Fin.val e.1⟩
    · simp only [collides, Bool.or_eq_true]
      refine or_congr_right ⟨fun ho => ⟨_, _, ⟨rfl, rfl⟩, ho⟩, ?_⟩
      rintro ⟨py, px, ⟨rfl, rfl⟩, ho⟩
      exact ho
  · next h =>
    exact Drawn.none c fun py px hp => h ⟨hp.1 ▸ px.isLt, hp.2 ▸ py.isLt⟩

theorem drawCols_drawn (bits : Byte) (X Y : Nat) (c : Canvas) (cols : Nat) :
    Drawn (fun py px => ∃ col, col < cols ∧ spriteBit bits col = true ∧ px.val = X + col ∧ py.val = Y)
      c (drawCols bits X Y c cols) := by
  induction cols with
  | zero => exact Drawn.none c fun py px ⟨col, h, _⟩ => absurd h (by omega)
  | succ j ih =>
    unfold drawCols
    split
    · next hb =>
      refine (ih.comp (drawPixel_drawn (X + j) Y _) ?_).congr fun py px => ⟨?_, ?_⟩
      · rintro py px ⟨col, hc, -, hx, -⟩ ⟨hx', -⟩
        omega
      · rintro (⟨col, hc, h⟩ | h)
        · exact ⟨col, by omega, h⟩
        · exact ⟨j, by omega, hb, h⟩
      · rintro ⟨col, hc, hbit, h⟩
        by_cases e : col = j
        · subst e; exact .inr h
        · exact .inl ⟨col, by omega, hbit, h⟩
    · next hb =>
      refine ih.congr fun py px => ⟨?_, ?_⟩
      · rintro ⟨col, hc, h⟩
        exact ⟨col, by omega, h⟩
      · rintro ⟨col, hc, hbit, h⟩
        by_cases e : col = j
        · subst e; exact absurd hbit hb
        · exact ⟨col, by omega, hbit, h⟩

/-- The whole sprite: the pixels toggled are those it covers (R100, R101, R103, R104). -/
theorem drawRows_drawn (s : State) (X Y n : Nat) :
    Drawn (Covers s X Y n) ⟨s.disp, false⟩ (drawRows s X Y n) := by
  induction n with
  | zero => exact Drawn.none _ fun py px ⟨row, col, h, _⟩ => absurd h (by omega)
  | succ j ih =>
    refine (ih.comp (drawCols_drawn (s.mem.read (s.effAddr j)) X (Y + j) _ 8) ?_).congr
      fun py px => ⟨?_, ?_⟩
    · rintro py px ⟨row, col, hr, -, -, -, hy⟩ ⟨-, -, -, -, hy'⟩
      omega
    · rintro (⟨row, col, hr, h⟩ | ⟨col, hc, hbit, hx, hy⟩)
      · exact ⟨row, col, by omega, h⟩
      · exact ⟨j, col, by omega, hc, hbit, hx, hy⟩
    · rintro ⟨row, col, hr, hc, hbit, hx, hy⟩
      by_cases e : row = j
      · subst e; exact .inr ⟨col, hc, hbit, hx, hy⟩
      · exact .inl ⟨row, col, by omega, hc, hbit, hx, hy⟩

/-- Which pixels a sprite covers depends on `I` and memory alone. -/
theorem Covers.congr {s t : State} (hi : t.i = s.i) (hm : ∀ a, t.mem.read a = s.mem.read a)
    (X Y n : Nat) (py : Fin 32) (px : Fin 64) : Covers t X Y n py px ↔ Covers s X Y n py px := by
  simp only [Covers, State.effAddr, hi, hm]

end Sys2Proof.Machine
end

