-- ==== Sys2Proof/Laws/Listing.lean ====
section
/-! SUPPORT. What the bytes of a listing are. -/

namespace Sys2Proof.Machine

@[simp] theorem wordBytes_length (w : Word) : (wordBytes w).length = 2 := rfl

@[simp] theorem bytes_instr (i : Instr) : (ListingLine.instr i).bytes = wordBytes (encode i) := rfl

@[simp] theorem bytes_db (bytes : List Byte) : (ListingLine.db bytes).bytes = bytes := rfl

@[simp] theorem bytes_dw (w : Word) : (ListingLine.dw w).bytes = wordBytes w := rfl

@[simp] theorem image_nil : image [] = [] := rfl

@[simp] theorem image_cons (line : ListingLine) (rest : List ListingLine) :
    image (line :: rest) = line.bytes ++ image rest := rfl

end Sys2Proof.Machine
end

