-- ==== Sys2Proof/Laws/PerInstr.lean ====
section
/-! SUPPORT. Statements about every instruction as syntax, one lemma per constructor. -/

namespace Sys2Proof.Laws

/-! ### Masking a word part by part -/

theorem append_and_append {m n : Nat} (a a' : BitVec m) (b b' : BitVec n) :
    (a ++ b) &&& (a' ++ b') = (a &&& a') ++ (b &&& b') := by
  apply BitVec.eq_of_getLsbD_eq
  intro i hi
  simp only [BitVec.getLsbD_and, BitVec.getLsbD_append]
  split <;> rfl

theorem wordXK_and (a a' b b' : Nibble) (k k' : Byte) :
    wordXK a b k &&& wordXK a' b' k' = wordXK (a &&& a') (b &&& b') (k &&& k') := by
  have h1 : (a ++ b : Byte) &&& (a' ++ b' : Byte) = (a &&& a') ++ (b &&& b') :=
    append_and_append a a' b b'
  have h2 : wordXK a b k &&& wordXK a' b' k' = ((a ++ b : Byte) &&& (a' ++ b' : Byte)) ++ (k &&& k') :=
    append_and_append (a ++ b : Byte) (a' ++ b' : Byte) k k'
  rw [h1] at h2
  exact h2

/-- A word of the formats `Z`, `XK`, `XS` is selected by a row that fixes its `n1`. -/
theorem selects_F000 (a b : Nibble) (k : Byte) :
    OpcodeRow.selects ⟨0xF000, wordXK a 0 0⟩ (wordXK a b k) = true := by
  have h : (0xF000 : Word) = wordXK 0xF 0 0 := by decide
  have ha : a &&& 0xF = a := BitVec.and_allOnes
  have hb : b &&& 0 = 0 := BitVec.and_zero
  have hk : k &&& 0 = 0 := BitVec.and_zero
  simp only [OpcodeRow.selects, h, wordXK_and, ha, hb, hk, beq_self_eq_true]

/-- A word of format `A` is selected by a row that fixes its `n1`. -/
theorem selects_F000_wordA (a : Nibble) (nnn : Addr) :
    OpcodeRow.selects ⟨0xF000, wordXK a 0 0⟩ (wordA a nnn) = true :=
  wordA_eq a nnn ▸ selects_F000 a _ _

/-- A word is selected by a row that fixes its `n1` and `byteImm`. -/
theorem selects_F0FF (a b : Nibble) (k : Byte) :
    OpcodeRow.selects ⟨0xF0FF, wordXK a 0 k⟩ (wordXK a b k) = true := by
  have h : (0xF0FF : Word) = wordXK 0xF 0 0xFF := by decide
  have ha : a &&& 0xF = a := BitVec.and_allOnes
  have hk : k &&& 0xFF = k := BitVec.and_allOnes
  have hb : b &&& 0 = 0 := BitVec.and_zero
  simp only [OpcodeRow.selects, h, wordXK_and, ha, hb, hk, beq_self_eq_true]

/-- A word of format `XYN` is selected by a row that fixes its `n1`. -/
theorem selects_F000_wordOfNibbles (a b c d : Nibble) :
    OpcodeRow.selects ⟨0xF000, wordXK a 0 0⟩ (wordOfNibbles a b c d) = true :=
  wordOfNibbles_eq a b c d ▸ selects_F000 a b _

/-- A word of format `XY` is selected by a row that fixes its `n1` and `n4`. -/
theorem selects_F00F (a b c d : Nibble) :
    OpcodeRow.selects ⟨0xF00F, wordOfNibbles a 0 0 d⟩ (wordOfNibbles a b c d) = true := by
  have h : (0xF00F : Word) = wordXK 0xF 0 ((0 : Nibble) ++ (0xF : Nibble)) := by decide
  have hk : (c ++ d : Byte) &&& ((0 : Nibble) ++ (0xF : Nibble)) = (c &&& 0) ++ (d &&& 0xF) :=
    append_and_append c 0 d 0xF
  have ha : a &&& 0xF = a := BitVec.and_allOnes
  have hd : d &&& 0xF = d := BitVec.and_allOnes
  have hb : b &&& 0 = 0 := BitVec.and_zero
  have hc : c &&& 0 = 0 := BitVec.and_zero
  simp only [OpcodeRow.selects, h, wordOfNibbles_eq, wordXK_and, hk, ha, hb, hc, hd, beq_self_eq_true]

end Sys2Proof.Laws

namespace Sys2Proof.Laws.SelectsOwnRow

/-- The word of an instruction is selected by the instruction's own row of the opcode map (R55). -/
def Statement (i : Instr) : Prop := i.row.selects (encode i) = true

theorem ret (ign : Nibble) : Statement (.ret ign) := selects_F0FF 0x0 ign 0xEE
theorem jp (nnn : Addr) : Statement (.jp nnn) := selects_F000_wordA 0x1 nnn
theorem call (nnn : Addr) : Statement (.call nnn) := selects_F000_wordA 0x2 nnn
theorem se (x : Reg) (kk : Byte) : Statement (.se x kk) := selects_F000 0x3 _ kk
theorem sne (x : Reg) (kk : Byte) : Statement (.sne x kk) := selects_F000 0x4 _ kk
theorem ldImm (x : Reg) (kk : Byte) : Statement (.ldImm x kk) := selects_F000 0x6 _ kk
theorem addImm (x : Reg) (kk : Byte) : Statement (.addImm x kk) := selects_F000 0x7 _ kk
theorem ldReg (x y : Reg) : Statement (.ldReg x y) := selects_F00F 0x8 _ _ 0x0
theorem andReg (x y : Reg) : Statement (.andReg x y) := selects_F00F 0x8 _ _ 0x2
theorem addReg (x y : Reg) : Statement (.addReg x y) := selects_F00F 0x8 _ _ 0x4
theorem subReg (x y : Reg) : Statement (.subReg x y) := selects_F00F 0x8 _ _ 0x5
theorem ldI (nnn : Addr) : Statement (.ldI nnn) := selects_F000_wordA 0xA nnn
theorem rnd (x : Reg) (kk : Byte) : Statement (.rnd x kk) := selects_F000 0xC _ kk
theorem drw (x y : Reg) (n : Fin 16) : Statement (.drw x y n) := selects_F000_wordOfNibbles 0xD _ _ _
theorem skp (x : Reg) : Statement (.skp x) := selects_F0FF 0xE _ 0x9E
theorem sknp (x : Reg) : Statement (.sknp x) := selects_F0FF 0xE _ 0xA1
theorem ldVxDt (x : Reg) : Statement (.ldVxDt x) := selects_F0FF 0xF _ 0x07
theorem ldDtVx (x : Reg) : Statement (.ldDtVx x) := selects_F0FF 0xF _ 0x15
theorem ldStVx (x : Reg) : Statement (.ldStVx x) := selects_F0FF 0xF _ 0x18
theorem ldF (x : Reg) : Statement (.ldF x) := selects_F0FF 0xF _ 0x29
theorem ldB (x : Reg) : Statement (.ldB x) := selects_F0FF 0xF _ 0x33
theorem ldVxI (x : Reg) : Statement (.ldVxI x) := selects_F0FF 0xF _ 0x65

end Sys2Proof.Laws.SelectsOwnRow
end

