-- ==== Sys2Proof/Laws/Step.lean ====
section
/-! SUPPORT. What a step can do, and that `withFetchWord` makes the next step run the word placed. -/

namespace Sys2Proof.Machine

/-- The four things a step does (R52, R129): nothing when halted, the fetch error, the unimplemented
word's error, or the instruction fetched. -/
theorem step_cases (s : State) :
    (s.err.valid = true ∧ step s = .next s) ∨
    (Running s ∧ 0xFFE < s.pc.toNat ∧
      step s = .next (raise .memoryOutOfBounds 0x0000 (max s.pc.toNat 0x1000) s)) ∨
    (Running s ∧ s.pc.toNat ≤ 0xFFE ∧
      decode (s.mem.read s.pc.toNat) (s.mem.read (s.pc.toNat + 1)) =
        .error (.unimplementedOpcode (s.mem.read s.pc.toNat ++ s.mem.read (s.pc.toNat + 1))) ∧
      step s = .next (raise .unimplementedOpcode
        (s.mem.read s.pc.toNat ++ s.mem.read (s.pc.toNat + 1)) 0 s)) ∨
    (∃ i, Running s ∧ Fetches s i ∧ step s = exec i s) := by
  by_cases hv : s.err.valid = true
  · exact .inl ⟨hv, by simp [step, hv]⟩
  have hr : Running s := by simpa [Running] using hv
  by_cases hpc : s.pc.toNat ≤ 0xFFE
  · cases hd : decode (s.mem.read s.pc.toNat) (s.mem.read (s.pc.toNat + 1)) with
    | ok i => exact .inr (.inr (.inr ⟨i, hr, ⟨hpc, hd⟩, by simp [step, hv, fetch_ok hpc, hd]⟩))
    | error e =>
      obtain ⟨-, rfl⟩ := (decode_error_iff _ _ _).1 hd
      exact .inr (.inr (.inl ⟨hr, hpc, rfl, by simp [step, hv, fetch_ok hpc, hd, raised]⟩))
  · have hgt : 0xFFE < s.pc.toNat := by omega
    exact .inr (.inl ⟨hr, hgt, by simp [step, hv, fetch_error hgt, raised]⟩)

/-- The elements an instruction that raises no error writes (R10 to R24). -/
def Writes : Instr → Element → Prop
  | .jp _, e | .se _ _, e | .sne _ _, e | .skp _, e | .sknp _, e => e = .pc
  | .ret _, e => e = .pc ∨ e = .sp
  | .call _, e => e = .pc ∨ e = .sp ∨ ∃ k, e = .stack k
  | .ldImm x _, e | .addImm x _, e | .ldReg x _, e | .andReg x _, e | .ldVxDt x, e =>
    e = .v x ∨ e = .pc
  | .addReg x _, e | .subReg x _, e => (e = .v x ∨ e = .v 15) ∨ e = .pc
  | .rnd x _, e => e = .draws ∨ e = .v x ∨ e = .pc
  | .ldI _, e | .ldF _, e => e = .pc ∨ e = .i
  | .drw _ _ _, e => e = .pc ∨ e = .v 15 ∨ ∃ y x, e = .disp y x
  | .ldDtVx _, e => e = .pc ∨ e = .dt
  | .ldStVx _, e => e = .pc ∨ e = .st
  | .ldB _, e => e = .pc ∨ ∃ a, e = .mem a
  | .ldVxI x, e => e = .pc ∨ ∃ r, r ≤ x ∧ e = .v r

/-- Where an instruction that raises no error leaves `PC`, if not at an address it names (R13). -/
def Continues : Instr → State → State → Prop
  | .jp _, _, _ | .call _, _, _ | .ret _, _, _ => True
  | .se _ _, s, t | .sne _ _, s, t | .skp _, s, t | .sknp _, s, t =>
    t.pc = s.pc + 2 ∨ t.pc = s.pc + 2 + 2
  | .ldImm _ _, s, t | .addImm _ _, s, t | .ldReg _ _, s, t | .andReg _ _, s, t
  | .addReg _ _, s, t | .subReg _ _, s, t | .ldI _, s, t | .rnd _ _, s, t | .drw _ _ _, s, t
  | .ldVxDt _, s, t | .ldDtVx _, s, t | .ldStVx _, s, t | .ldF _, s, t | .ldB _, s, t
  | .ldVxI _, s, t => t.pc = s.pc + 2

theorem skipIf_continues (s : State) (cond : Bool) :
    OnlyChanges (· = .pc) s (s.skipIf cond) ∧
      ((s.skipIf cond).pc = s.pc + 2 ∨ (s.skipIf cond).pc = s.pc + 2 + 2) := by
  exact ⟨setPc_onlyChanges s _, by cases cond <;> simp⟩

/-- Everything an instruction can do (R13, R120, R124): it raises an error of a kind that is its own, with
its own word, and does nothing else, or it writes only the elements it is listed with and goes on. -/
theorem exec_cases (i : Instr) (s t : State) (h : exec i s = .next t) :
    (∃ e addr, t = raise e (encode i) addr s ∧ e.RaisedBy i) ∨
    (OnlyChanges (Writes i) s t ∧ Continues i s t) := by
  cases i
  all_goals simp only [exec] at h
  case ret ign =>
    unfold execRet at h
    split at h <;> simp only [raised, Host.Outcome.next.injEq] at h <;> subst h
    · exact .inl ⟨_, _, rfl, ign, rfl⟩
    · refine .inr ⟨fun e he => ?_, trivial⟩
      cases e <;> first | rfl | (exact absurd (by simp [Writes]) he)
  case call nnn =>
    unfold execCall at h
    split at h <;> simp only [raised, Host.Outcome.next.injEq] at h <;> subst h
    · refine .inr ⟨fun e he => ?_, trivial⟩
      cases e <;> first | rfl | (exact absurd (by simp [Writes]) he)
    · exact .inl ⟨_, _, rfl, nnn, rfl⟩
  case se => injection h with h; subst h; exact .inr (skipIf_continues s _)
  case sne => injection h with h; subst h; exact .inr (skipIf_continues s _)
  case skp x =>
    unfold execSkp skipOnKey at h
    split at h <;> simp only [raised, Host.Outcome.next.injEq] at h <;> subst h
    · exact .inr (skipIf_continues s _)
    · exact .inl ⟨_, _, rfl, x, .inl rfl⟩
  case sknp x =>
    unfold execSknp skipOnKey at h
    split at h <;> simp only [raised, Host.Outcome.next.injEq] at h <;> subst h
    · exact .inr (skipIf_continues s _)
    · exact .inl ⟨_, _, rfl, x, .inr rfl⟩
  case drw x y n =>
    unfold execDrw at h
    rcases checked_cases _ _ s _ with ⟨_, h'⟩ | ⟨_, _, hk, h'⟩ <;> rw [h'] at h <;>
      simp only [Host.Outcome.next.injEq] at h <;> subst h
    · refine .inr ⟨fun e he => ?_, rfl⟩
      cases e
      case v r =>
        have hr : ¬ r = vf := fun hr => he (.inr (.inl (hr ▸ rfl)))
        exact (State.getV_setV _ _ _ _).trans (if_neg hr)
      all_goals first | rfl | (exact absurd (by simp [Writes]) he)
    · exact .inl ⟨_, _, rfl, by rw [checkSprite_kind hk]; exact .inl ⟨x, y, n, rfl⟩⟩
  case ldB x =>
    unfold execLdB at h
    rcases checked_cases _ _ s _ with ⟨_, h'⟩ | ⟨_, _, hk, h'⟩ <;> rw [h'] at h <;>
      simp only [Host.Outcome.next.injEq] at h <;> subst h
    · refine .inr ⟨fun e he => ?_, rfl⟩
      cases e <;> first | rfl | (exact absurd (by simp [Writes]) he)
    · rcases checkRange_kind hk with rfl | rfl
      · exact .inl ⟨_, _, rfl, .inr (.inl ⟨x, rfl⟩)⟩
      · exact .inl ⟨_, _, rfl, x, rfl⟩
  case ldVxI x =>
    unfold execLdVxI at h
    rcases checked_cases _ _ s _ with ⟨_, h'⟩ | ⟨_, _, hk, h'⟩ <;> rw [h'] at h <;>
      simp only [Host.Outcome.next.injEq] at h <;> subst h
    · obtain ⟨hv, hs⟩ := loadRegs_spec s (x.val + 1) (by omega)
      refine .inr ⟨fun e he => ?_, by rw [hs]; rfl⟩
      cases e
      case v r =>
        have hr : ¬ r.val < x.val + 1 := fun hr =>
          he (.inr ⟨r, Fin.le_def.2 (by omega), rfl⟩)
        exact (hv r).trans (if_neg hr)
      all_goals (rw [hs]; first | rfl | (exact absurd (by simp [Writes]) he))
    · exact .inl ⟨_, _, rfl, by rw [checkRange_read_kind hk]; exact .inr (.inr ⟨x, rfl⟩)⟩
  case addReg x y =>
    injection h with h; subst h
    exact .inr ⟨(setFlagThenResult_onlyChanges s _ x _).trans (setPc_onlyChanges _ _), rfl⟩
  case subReg x y =>
    injection h with h; subst h
    exact .inr ⟨(setFlagThenResult_onlyChanges s _ x _).trans (setPc_onlyChanges _ _), rfl⟩
  case jp => injection h with h; subst h; exact .inr ⟨setPc_onlyChanges s _, trivial⟩
  case rnd x kk =>
    injection h with h; subst h
    exact .inr ⟨(randByte_onlyChanges s).trans (setV_advance_onlyChanges _ x _), rfl⟩
  case ldI | ldF | ldDtVx | ldStVx =>
    injection h with h; subst h
    refine .inr ⟨fun e he => ?_, rfl⟩
    cases e <;> first | rfl | (exact absurd (by simp [Writes]) he)
  all_goals (injection h with h; subst h; exact .inr ⟨setV_advance_onlyChanges s _ _, rfl⟩)

/-- What an instruction that answers a next state did to `ERR`: nothing, or it raised an error of a kind
that is its own, with its own word, and did nothing else. -/
theorem exec_err_cases (i : Instr) (s t : State) (h : exec i s = .next t) :
    t.err = s.err ∨ ∃ e addr, t = raise e (encode i) addr s ∧ e.RaisedBy i := by
  rcases exec_cases i s t h with hr | ⟨hw, -⟩
  · exact .inr hr
  · exact .inl (hw .err (by cases i <;> simp [Writes]))

/-- What a placed word reads back as (R31). -/
theorem read_writeWord (m : Memory) (h : m.wf = true) (a : Nat) (w : Word) (ha : a ≤ 0xFFE) :
    (m.writeWord a w).read a = hiByte w ∧ (m.writeWord a w).read (a + 1) = loByte w := by
  have h1 := m.write_wf h a (hiByte w)
  unfold Memory.writeWord
  constructor
  · rw [Memory.read_write_ne _ h1 _ _ _ (by omega),
      Memory.read_write_same _ h _ _ (by simp only [Config.memSize]; omega)]
  · rw [Memory.read_write_same _ h1 _ _ (by simp only [Config.memSize]; omega)]

/-- The next step runs exactly the instruction placed, from any state whose memory is in its
canonical form. -/
theorem step_withFetchWord (s : State) (hm : s.mem.wf = true) (nbits w : Nat) (i : Instr)
    (h : decodeWord (tableWord nbits w) = .ok i) :
    step (s.withFetchWord nbits w) = exec i (s.withFetchWord nbits w) := by
  have hpc : (s.withFetchWord nbits w).pc.toNat ≤ 0xFFE := by
    simp only [State.withFetchWord]
    split
    · assumption
    · decide
  obtain ⟨h1, h2⟩ := read_writeWord s.mem hm _ (tableWord nbits w) hpc
  have hd : decode ((s.withFetchWord nbits w).mem.read (s.withFetchWord nbits w).pc.toNat)
      ((s.withFetchWord nbits w).mem.read ((s.withFetchWord nbits w).pc.toNat + 1)) = .ok i := by
    exact (congrArg₂ decode h1 h2).trans h
  have hv : (s.withFetchWord nbits w).halted = false := rfl
  simp only [step, hv, fetch_ok hpc, hd]
  rfl

end Sys2Proof.Machine
end

