-- ==== Sys2Proof/Laws/Transactions.lean ====
section
/-! SUPPORT. What memory holds after `RESET`, for any `FONT`. -/

namespace Sys2Proof.Machine

theorem reset_mem_wf : State.reset.mem.wf = true := rfl

/-- Memory that lists nothing reads as the reset contents with the default font (R25, R26). -/
theorem reset_mem_read (a : Nat) : State.reset.mem.read a = resetByte defaultFont a := rfl

theorem resetWith_mem_wf (c : Config) : (resetWith c).mem.wf = true :=
  Memory.writeList_wf _ reset_mem_wf _ _

/-- After `RESET` every address reads as the reset contents with the machine's own font (R140). -/
theorem resetWith_mem_read (c : Config) (a : Nat) :
    (resetWith c).mem.read a = resetByte c.font a := by
  show (State.reset.mem.writeList 0 ((List.range Config.fontSize).map (resetByte c.font))).read a = _
  rw [Memory.read_writeList _ reset_mem_wf _ _ (by simp [Config.fontSize, Config.memSize])]
  split
  · simp
  · next h =>
    have ha' : ¬ a < 80 := fun h' => h (by simpa using h')
    simp [reset_mem_read, resetByte, ha']

end Sys2Proof.Machine
end

