-- ==== Sys2Proof/Tests/Slice0.lean ====
section
/-! SUPPORT. The model's own tests. Expected results are the vectors of spec/95_test_vectors.md (named
in the docstrings) or are counted by hand from the rule named. After them, one witness for each
obligation that has hypotheses: a concrete state and operands that meet them. -/

namespace Sys2Proof.Tests

open Sys2Proof Sys2Proof.Machine

/-- The instruction answers a next state with the property. -/
def after (i : Instr) (s : State) (p : State → Bool) : Bool :=
  match exec i s with
  | .next t => p t
  | .fault _ => false
  | .refused _ => false

/-- The step answers a next state with the property. -/
def afterStep (s : State) (p : State → Bool) : Bool :=
  match step s with
  | .next t => p t
  | .fault _ => false
  | .refused _ => false

/-- The reset state with some registers set. -/
def regs (l : List (Reg × Byte)) : State := l.foldl (fun s p => s.setV p.1 p.2) State.reset

/-- The state with some bytes in memory from `a`. -/
def bytes (a : Nat) (l : List Byte) (s : State) : State := { s with mem := s.mem.writeList a l }

/-- The state with one pixel on. -/
def lit (y : Fin 32) (x : Fin 64) (s : State) : State := { s with disp := s.disp.toggle y x }

/-- How many pixels of one row are on. -/
def litInRow (s : State) (y : Fin 32) : Nat := (s.disp[y].toList.filter id).length

/-- The error fields. -/
def errIs (code : BitVec 3) (opcode pc addr : Word) (s : State) : Bool :=
  s.err == ⟨true, code, opcode, pc, addr⟩ && s.pc == pc

/-! ### WellFormed: an ill-formed term for each check -/

/-- R59: family 0x5 is unimplemented. -/
theorem test_wordWellFormed_refuses_5120 : wordWellFormed 0x5120 = false := by decide
/-- R59: clear screen is no instruction of this machine. -/
theorem test_wordWellFormed_refuses_00E0 : wordWellFormed 0x00E0 = false := by decide
/-- R56: an alias of `RET` is implemented. -/
theorem test_wordWellFormed_accepts_05EE : wordWellFormed 0x05EE = true := by decide
/-- R143: 3585 bytes are too many. -/
theorem test_imageWellFormed_refuses_3585 : imageWellFormed (List.replicate 3585 0xAA) = false :=
  decide_eq_false (by rw [List.length_replicate]; decide)
/-- R143: 3584 bytes exactly fill the program region. -/
theorem test_imageWellFormed_accepts_3584 : imageWellFormed (List.replicate 3584 0xAA) = true :=
  decide_eq_true (by rw [List.length_replicate])
/-- R54: every term is well formed (its operands cannot be out of range). -/
theorem test_instr_wellFormed : (Instr.drw 15 15 15).wellFormed = true := by decide

/-! ### Decoding: a word written out from the encoding of each row of R55 -/

theorem test_decode_ret : decode 0b00000000 0b11101110 = .ok (.ret 0) := by decide
/-- The alias 0x05EE (R56, T-CF-2). -/
theorem test_decode_ret_alias : decode 0b00000101 0b11101110 = .ok (.ret 5) := by decide
theorem test_decode_jp : decode 0b00011010 0b10111100 = .ok (.jp 0xABC) := by decide
theorem test_decode_call : decode 0b00100011 0b00000000 = .ok (.call 0x300) := by decide
theorem test_decode_se : decode 0b00110001 0b00000101 = .ok (.se 1 0x05) := by decide
theorem test_decode_sne : decode 0b01000001 0b00000101 = .ok (.sne 1 0x05) := by decide
theorem test_decode_ldImm : decode 0b01101010 0b00101011 = .ok (.ldImm 10 0x2B) := by decide
theorem test_decode_addImm : decode 0b01110011 0b00000101 = .ok (.addImm 3 0x05) := by decide
theorem test_decode_ldReg : decode 0b10001010 0b10110000 = .ok (.ldReg 10 11) := by decide
theorem test_decode_andReg : decode 0b10000000 0b00010010 = .ok (.andReg 0 1) := by decide
theorem test_decode_addReg : decode 0b10000000 0b00010100 = .ok (.addReg 0 1) := by decide
theorem test_decode_subReg : decode 0b10001111 0b00010101 = .ok (.subReg 15 1) := by decide
theorem test_decode_ldI : decode 0b10100010 0b00001110 = .ok (.ldI 0x20E) := by decide
theorem test_decode_rnd : decode 0b11000010 0b00001111 = .ok (.rnd 2 0x0F) := by decide
theorem test_decode_drw : decode 0b11010001 0b00100101 = .ok (.drw 1 2 5) := by decide
theorem test_decode_skp : decode 0b11100010 0b10011110 = .ok (.skp 2) := by decide
theorem test_decode_sknp : decode 0b11100010 0b10100001 = .ok (.sknp 2) := by decide
theorem test_decode_ldVxDt : decode 0b11110011 0b00000111 = .ok (.ldVxDt 3) := by decide
theorem test_decode_ldDtVx : decode 0b11110000 0b00010101 = .ok (.ldDtVx 0) := by decide
theorem test_decode_ldStVx : decode 0b11110100 0b00011000 = .ok (.ldStVx 4) := by decide
theorem test_decode_ldF : decode 0b11110011 0b00101001 = .ok (.ldF 3) := by decide
theorem test_decode_ldB : decode 0b11110000 0b00110011 = .ok (.ldB 0) := by decide
theorem test_decode_ldVxI : decode 0b11110010 0b01100101 = .ok (.ldVxI 2) := by decide
/-- The fields of T-DEC-1. -/
theorem test_fields : fieldsOf 0xD1 0x25 = ⟨0xD, 1, 2, 5, 0x25, 0x125⟩ := by decide
/-- T-DEC-3: the little-endian misreading of a jump. -/
theorem test_decode_rejects_0E12 : decode 0x0E 0x12 = .error (.unimplementedOpcode 0x0E12) := by decide
/-- T-DEC-5. -/
theorem test_decode_rejects_F266 : decode 0xF2 0x66 = .error (.unimplementedOpcode 0xF266) := by decide
/-- The opcode table's numbering: the word itself. -/
theorem test_decodeTableWord : decodeTableWord 16 0x8014 = some (.addReg 0 1) := by decide

/-! ### Instructions -/

/-- T-CF-2. -/
theorem test_ret : after (.ret 5)
    ({ State.reset with depth := 2, stack := (State.reset.stack.set 0 0x0202).set 1 0x0456 }.setPc 0x300)
    (fun t => t.pc == 0x456 && t.sp == 0 && t.getStack 1 == 0x0456) = true := by decide
/-- T-CF-3. -/
theorem test_ret_underflow : after (.ret 0) State.reset (errIs 3 0x00EE 0x200 0) = true := by decide
/-- T-CF-6: the jump succeeds, and the fetch that follows faults. -/
theorem test_jp_then_fetch : after (.jp 0xFFF) State.reset
    (fun t => t.pc == 0xFFF && afterStep t (errIs 4 0x0000 0xFFF 0x1000)) = true := by decide
/-- T-CF-9. -/
theorem test_call : after (.call 0x400) (State.reset.setPc 0xFFE)
    (fun t => t.pc == 0x400 && t.sp == 0 && t.getStack 0 == 0x1000) = true := by decide
/-- T-CF-10. -/
theorem test_call_overflow : after (.call 0x400) { State.reset with depth := 16 }
    (fun t => errIs 2 0x2400 0x200 0 t && t.sp == 15) = true := by decide
/-- T-CF-16: a skip past the end of memory. -/
theorem test_se : after (.se 0 0) (State.reset.setPc 0xFFE)
    (fun t => t.pc == 0x1002 && afterStep t (errIs 4 0x0000 0x1002 0x1002)) = true := by decide
/-- T-CF-14. -/
theorem test_sne : after (.sne 1 5) (regs [(1, 5)]) (fun t => t.pc == 0x202) = true := by decide
/-- T-ALU-1. -/
theorem test_ldImm : after (.ldImm 15 0xAB) State.reset
    (fun t => t.getV 15 == 0xAB && t.pc == 0x202) = true := by decide
/-- T-ALU-2: wraps, no flag. -/
theorem test_addImm : after (.addImm 3 5) (regs [(3, 0xFE), (15, 7)])
    (fun t => t.getV 3 == 3 && t.getV 15 == 7) = true := by decide
/-- T-ALU-4: the no-op idiom `ADD V0, 0`, with a value in the register and in the flag. -/
theorem test_addImm_noop :
    step ((regs [(0, 0xFF), (15, 1)]).withFetchWord 16 0x7000) =
      .next (((regs [(0, 0xFF), (15, 1)]).withFetchWord 16 0x7000).setPc 0x202) := by rfl
/-- T-ALU-5. -/
theorem test_ldReg : after (.ldReg 10 11) (regs [(11, 0x5A)])
    (fun t => t.getV 10 == 0x5A && t.getV 11 == 0x5A) = true := by decide
/-- T-ALU-7: the flag is not touched. -/
theorem test_andReg : after (.andReg 0 1) (regs [(0, 0xCC), (1, 0xAA), (15, 1)])
    (fun t => t.getV 0 == 0x88 && t.getV 15 == 1) = true := by decide
/-- T-ALU-11: `x = 15`, the result overwrites the carry. -/
theorem test_addReg_x15 : after (.addReg 15 1) (regs [(15, 0xF0), (1, 0x20)])
    (fun t => t.getV 15 == 0x10) = true := by decide
/-- T-ALU-12: `y = 15`, the old flag is an operand. -/
theorem test_addReg_y15 : after (.addReg 1 15) (regs [(1, 0xFF), (15, 2)])
    (fun t => t.getV 15 == 1 && t.getV 1 == 1) = true := by decide
/-- T-ALU-14: a borrow. -/
theorem test_subReg : after (.subReg 0 1) (regs [(0, 5), (1, 7), (15, 9)])
    (fun t => t.getV 0 == 0xFE && t.getV 15 == 0) = true := by decide
/-- T-ALU-17: `x = 15`, the result overwrites the flag. -/
theorem test_subReg_x15 : after (.subReg 15 1) (regs [(15, 3), (1, 5)])
    (fun t => t.getV 15 == 0xFE) = true := by decide
/-- T-ALU-21: mask 0 gives 0 whatever the byte is, and one byte is drawn. -/
theorem test_rnd_mask0 : ∃ t, exec (.rnd 3 0x00) (regs [(3, 0x55)]) = .next t ∧
    t.getV 3 = 0 ∧ t.draws = 1 ∧ t.pc = 0x202 :=
  ⟨_, rfl, by rw [State.getV_advance, State.getV_setV_same]; simp, rfl, rfl⟩
/-- T-MEM-2: not checked when loaded. -/
theorem test_ldI : after (.ldI 0xFFF) State.reset (fun t => t.i == 0x0FFF && t.pc == 0x202) = true := by
  decide
/-- T-MEM-5: the product is not truncated to 8 bits. -/
theorem test_ldF : after (.ldF 0) (regs [(0, 0xFF)]) (fun t => t.i == 0x04FB) = true := by decide
/-- T-MEM-6. -/
theorem test_ldB : after (.ldB 0) ((regs [(0, 0xFE)]).setI 0x300)
    (fun t => t.mem.read 0x300 == 2 && t.mem.read 0x301 == 5 && t.mem.read 0x302 == 4 &&
      t.i == 0x300) = true := by decide
/-- T-MEM-9: below the floor. -/
theorem test_ldB_floor : after (.ldB 0) ((regs [(0, 0xFF)]).setI 0x1FF)
    (fun t => errIs 6 0xF033 0x200 0x01FF t && t.mem == State.reset.mem) = true := by decide
/-- T-MEM-12. -/
theorem test_ldVxI : after (.ldVxI 2) (bytes 0x300 [2, 5, 4, 9] ((regs [(3, 0x77)]).setI 0x300))
    (fun t => t.getV 0 == 2 && t.getV 2 == 4 && t.getV 3 == 0x77) = true := by decide
/-- T-MEM-14: past the end, not even the registers in range are loaded. -/
theorem test_ldVxI_past_end : after (.ldVxI 15) ((regs [(0, 0x11)]).setI 0xFF1)
    (fun t => errIs 4 0xFF65 0x200 0x1000 t && t.getV 0 == 0x11) = true := by decide
/-- T-DRW-3: clipped at the right edge. -/
theorem test_drw_clip : after (.drw 1 2 2) (bytes 0x20E [0xFF, 0x81] ((regs [(1, 60), (2, 30)]).setI 0x20E))
    (fun t => litInRow t 30 == 4 && litInRow t 31 == 1 && t.disp.get 31 60 && t.getV 15 == 0) = true := by
  decide +kernel
/-- T-DRW-4: a collision. -/
theorem test_drw_collision : after (.drw 0 1 1) (lit 0 1 (bytes 0x300 [0xC0] (State.reset.setI 0x300)))
    (fun t => t.disp.get 0 0 && !t.disp.get 0 1 && t.getV 15 == 1) = true := by decide +kernel
/-- T-KEY-1. -/
theorem test_skp : after (.skp 2) (keySet 10 true (regs [(2, 0x0A)])) (fun t => t.pc == 0x204) = true := by
  decide
/-- T-KEY-6: no masking to key 0. -/
theorem test_skp_above_15 : after (.skp 2) (keySet 0 true (regs [(2, 0x10)]))
    (errIs 5 0xE29E 0x200 0x0010) = true := by decide
/-- T-KEY-4. -/
theorem test_sknp : after (.sknp 2) (keySet 10 true (regs [(2, 0x0A)])) (fun t => t.pc == 0x202) = true := by
  decide
/-- T-KEY-7. -/
theorem test_sknp_above_15 : after (.sknp 0) (regs [(0, 0xFF)]) (errIs 5 0xE0A1 0x200 0x00FF) = true := by
  decide
/-- T-TMR-1. -/
theorem test_ldVxDt : after (.ldVxDt 3) (State.reset.setDt 0x2A)
    (fun t => t.getV 3 == 0x2A && t.dt == 0x2A) = true := by decide
/-- T-TMR-2. -/
theorem test_ldDtVx : after (.ldDtVx 0) (regs [(0, 3)]) (fun t => t.dt == 3 && t.st == 0) = true := by decide
/-- T-TMR-3. -/
theorem test_ldStVx : after (.ldStVx 4) (regs [(4, 0x10)]) (fun t => t.st == 0x10 && t.dt == 0) = true := by
  decide

/-! ### The step and the other transactions -/

/-- T-ERR-1. -/
theorem test_step_reset : afterStep State.reset (errIs 1 0x0000 0x200 0) = true := by decide
/-- S2: the first fetch. -/
theorem test_first_fetch : afterStep (State.reset.withFetchWord 16 0x6A2B)
    (fun t => t.getV 10 == 0x2B && t.pc == 0x202) = true := by decide
/-- T-CF-7: an odd `PC` is legal. -/
theorem test_step_odd_pc : afterStep (bytes 0x201 [0x6A, 0xFF] (State.reset.setPc 0x201))
    (fun t => t.getV 10 == 0xFF && t.pc == 0x203) = true := by decide
/-- T-MEM-11: the instruction overwrites itself, and the next step fetches the new bytes. -/
theorem test_self_modifying : afterStep (((regs [(0, 0x7B)]).setI 0x200).withFetchWord 16 0xF033)
    (fun t => t.mem.read 0x200 == 1 && afterStep t (errIs 1 0x0300 0x202 0)) = true := by decide
/-- S9. -/
theorem test_step_unimplemented : afterStep ((regs [(1, 1)]).withFetchWord 16 0x5120)
    (errIs 1 0x5120 0x200 0) = true := by decide
/-- T-TICK-2, under `saturate`. -/
theorem test_tick_saturate : (tick defaultConfig (State.reset.setDt 2)).dt = 1 ∧
    (tick defaultConfig (State.reset.setDt 2)).st = 0 := by decide
/-- T-TICK-3, under `wrap`. -/
theorem test_tick_wrap : (tick ⟨.wrap, defaultFont⟩ (State.reset.setDt 2)).st = 0xFF := by decide
/-- T-LOAD-5: an odd length. -/
theorem test_load : (load [0x60, 0x01, 0x70] State.reset).2 = .ok ∧
    (load [0x60, 0x01, 0x70] State.reset).1.mem.read 0x202 = 0x70 ∧
    (load [0x60, 0x01, 0x70] State.reset).1.mem.read 0x203 = 0x00 := by decide
/-- T-KEY-9. -/
theorem test_keySet : (keySet 5 true State.reset).getKey 5 = true ∧
    (keySet 5 false (keySet 5 true State.reset)) = State.reset := by decide +kernel
/-- S1: glyph 0 and glyph F of the default font. -/
theorem test_font : State.reset.mem.read 0x000 = 0xF0 ∧ State.reset.mem.read 0x001 = 0x90 ∧
    State.reset.mem.read 0x04E = 0x80 ∧ State.reset.mem.read 0x050 = 0x00 := by decide

/-! ### Listings -/

/-- The five spellings the document uses (R61). -/
theorem test_assembly : (decode 0x60 0x05).map assembly = .ok ⟨"LD", [.reg 0, .num 5]⟩ ∧
    (decode 0x70 0x03).map assembly = .ok ⟨"ADD", [.reg 0, .num 3]⟩ ∧
    (decode 0x80 0x14).map assembly = .ok ⟨"ADD", [.reg 0, .reg 1]⟩ ∧
    (decode 0x80 0x15).map assembly = .ok ⟨"SUB", [.reg 0, .reg 1]⟩ ∧
    (decode 0x00 0xEE).map assembly = .ok ⟨"RET", []⟩ := ⟨rfl, rfl, rfl, rfl, rfl⟩
/-- The image of program P1 of spec/95_test_vectors.md. -/
theorem test_image : image [.instr (.ldImm 0 0), .instr (.ldImm 1 5), .instr (.addReg 0 1),
    .instr (.addImm 1 0xFF), .instr (.se 1 0), .instr (.jp 0x204), .instr (.jp 0x20C)] =
    [0x60, 0x00, 0x61, 0x05, 0x80, 0x14, 0x71, 0xFF, 0x31, 0x00, 0x12, 0x04, 0x12, 0x0C] := by decide
/-- The data directives (R61): a word is placed big-endian. -/
theorem test_directives : image [.dw 0x120C, .db [1, 2, 3]] = [0x12, 0x0C, 1, 2, 3] := by decide

/-! ### Witnesses: the hypotheses of each obligation are met, at the ends of their ranges -/

/-- A halted machine. -/
def haltedState : State := { State.reset with err := ⟨true, 6, 0xF033, 0x200, 0x1FF⟩ }

/-- A machine with `d` calls active. -/
def deep (d : Fin 17) : State := { State.reset with depth := d }

/-- One set sprite bit at the last byte of memory, drawn at the last pixel of the grid. -/
def cornerSprite : State := bytes 0xFFF [0x80] ((regs [(0, 63), (1, 31)]).setI 0xFFF)

/-- A state at the edges the invariant allows. -/
def edgeState : State :=
  { State.reset with i := 0xFFF, pc := 0x1002, depth := 16, stack := State.reset.stack.set 15 0x1000 }

theorem haltedState_not_running : ¬ Running haltedState := by simp [Running, haltedState]

theorem cornerSprite_covers : Covers cornerSprite 63 31 1 31 63 :=
  ⟨0, 0, by decide, by decide, by decide, rfl, rfl⟩

theorem cornerSprite_covers_lit : Covers (lit 31 63 cornerSprite) 63 31 1 31 63 :=
  ⟨0, 0, by decide, by decide, by decide, rfl, rfl⟩

theorem cornerSprite_not_covers : ¬ Covers cornerSprite 63 31 1 31 62 := by
  rintro ⟨_, col, _, _, _, h, _⟩
  have : 62 = 63 + col := h
  omega

theorem cornerSprite_no_collision :
    ¬ ∃ py px, Covers cornerSprite 63 31 1 py px ∧ cornerSprite.disp.get py px = true := by
  rintro ⟨py, px, -, h⟩
  have : cornerSprite.disp = State.reset.disp := rfl
  simp [this, State.reset, Display.get] at h

theorem edgeState_inv : Inv defaultConfig edgeState where
  index := by decide
  counter := by decide
  entries := by decide
  reserved := fun a _ => reset_mem_read a
  quiet := fun _ => rfl
  latched := fun h => nomatch h
  canonical := rfl

theorem witness_DecodeOfEncodeIsIdentity : (Instr.drw 15 15 15).wellFormed = true := rfl
theorem witness_EncodeOfDecodeIsIdentity : decode 0xDF 0xFF = .ok (.drw 15 15 15) := by decide
theorem witness_DecoderAgreesWithOpcodeMap :
    (decodeWord 0xDFFF = .ok (.drw 15 15 15) ∧ (Instr.drw 15 15 15).row.selects 0xDFFF = true) ∧
    wordWellFormed 0xDFFF = true ∧ wordWellFormed 0xFFFF = false := by decide
theorem witness_StepRunsDecodedInstruction :
    let s := bytes 0xFFE [0x1F, 0xFF] (State.reset.setPc 0xFFE)
    Running s ∧ Fetches s (.jp 0xFFF) := ⟨rfl, by decide, by decide⟩
theorem witness_HaltedMachineIsIdle : ¬ Running haltedState := haltedState_not_running
theorem witness_FetchPastEndLatchesError :
    Running (State.reset.setPc 0xFFF) ∧ 0xFFE < (State.reset.setPc 0xFFF).pc.toNat :=
  ⟨rfl, by decide⟩
theorem witness_UnimplementedWordLatchesError :
    let s := State.reset.setPc 0xFFE
    Running s ∧ s.pc.toNat ≤ 0xFFE ∧
      wordWellFormed (s.mem.read s.pc.toNat ++ s.mem.read (s.pc.toNat + 1)) = false :=
  ⟨rfl, by decide, by decide⟩
/-- A step that latches nothing, one that latches a fetched word, one that had none to fetch. -/
theorem witness_ErrorsArePrecise :
    (Running (State.reset.withFetchWord 16 0x1FFF) ∧
      ∃ t, step (State.reset.withFetchWord 16 0x1FFF) = .next t) ∧
    (Running (State.reset.setPc 0xFFE) ∧
      ∃ t, step (State.reset.setPc 0xFFE) = .next t ∧ t.err ≠ (State.reset.setPc 0xFFE).err) ∧
    (Running (State.reset.setPc 0xFFF) ∧
      ∃ t, step (State.reset.setPc 0xFFF) = .next t ∧ t.err ≠ (State.reset.setPc 0xFFF).err) :=
  ⟨⟨rfl, _, rfl⟩, ⟨rfl, _, rfl, by decide⟩, ⟨rfl, _, rfl, by decide⟩⟩
theorem witness_JumpSetsPc_self : (0xFFF : Addr).toNat = (State.reset.setPc 0xFFF).pc.toNat := by decide
theorem witness_CallPushesReturnAddress : (deep 15).depth.val < 16 := by decide
theorem witness_ReturnPopsPc : 0 < (deep 1).depth.val := by decide
theorem witness_StackLimitsLatchErrors : (deep 16).sp = 15 ∧ (deep 0).sp = -1 := by decide
theorem witness_NestedCallsReturn :
    (deep 0).depth.val + ((List.replicate 15 (0x300 : Addr)).length + 1) ≤ 16 := by decide
/-- Both arms of the skip, and of its opposite. -/
theorem witness_SkipIfEqualWritesPc :
    State.reset.getV 15 = 0 ∧ State.reset.getV 15 ≠ 1 := by decide
/-- A sum of 256 and one of 255. -/
theorem witness_AddRegistersSetsCarry : (14 : Reg) ≠ 15 ∧
    256 ≤ ((regs [(14, 0xFF), (0, 1)]).getV 14).toNat + ((regs [(14, 0xFF), (0, 1)]).getV 0).toNat ∧
    ¬ 256 ≤ ((regs [(14, 0xFF)]).getV 14).toNat + ((regs [(14, 0xFF)]).getV 0).toNat := by decide
/-- A difference of −1 and one of 0. -/
theorem witness_SubRegistersSetsNotBorrow : (14 : Reg) ≠ 15 ∧
    ((regs [(0, 1)]).getV 14).toNat < ((regs [(0, 1)]).getV 0).toNat ∧
    ¬ (State.reset.getV 14).toNat < (State.reset.getV 0).toNat := by decide
theorem witness_StoreDigitsWritesThreeBytes :
    (State.reset.setI 0x200).mem.wf = true ∧ 0x200 ≤ (State.reset.setI 0x200).i.toNat ∧
    (State.reset.setI 0xFFD).mem.wf = true ∧ (State.reset.setI 0xFFD).i.toNat ≤ 0xFFD := by decide
theorem witness_StoreDigitsOutsideProgramRegionLatchesError :
    (State.reset.setI 0x1FF).i.toNat < 0x200 ∧ 0xFFD < (State.reset.setI 0xFFE).i.toNat := by decide
theorem witness_LoadRegistersReadsMemory :
    InsideMemory (State.reset.setI 0xFF0) ((15 : Reg).val + 1) ∧ (15 : Reg) ≤ 15 :=
  ⟨show (0xFF0 : Nat) + 0 + 16 ≤ 0x1000 by decide, by decide⟩
theorem witness_ReadPastEndLatchesError :
    ¬ InsideMemory (State.reset.setI 0xFF1) ((15 : Reg).val + 1) ∧
    ((2 : Fin 16) ≠ 0 ∧ ¬ InsideMemory (State.reset.setI 0xFFF) (2 : Fin 16).val) :=
  ⟨show ¬ (0xFF1 : Nat) + 0 + 16 ≤ 0x1000 by decide,
   by decide, show ¬ (0xFFF : Nat) + 0 + 2 ≤ 0x1000 by decide⟩
/-- The check passes for the whole program region and the last byte, and for nothing wider. -/
theorem witness_RangeCheckCoversEveryByte :
    checkRange 0x200 0xDFF .write = none ∧ checkRange 0xFFF 0 .read = none ∧
    checkRange 0x1FF 0 .write ≠ none ∧ checkRange 0x200 0xE00 .write ≠ none ∧
    checkRange 0xFFF 1 .read ≠ none := by decide
theorem witness_MemoryIsPlainStorage :
    (State.reset.mem.wf = true ∧ 0xFFF < 0x1000 ∧ 0xFFE ≠ 0xFFF) ∧
    let m := (State.reset.mem.write 0x300 5).write 0x300 0
    m.wf = true ∧ ∀ a, a < 0x1000 → State.reset.mem.read a = m.read a :=
  ⟨by decide, by decide, fun _ _ => rfl⟩
/-- No row; one row with a covered pixel on, a covered pixel off, and a pixel not covered. -/
theorem witness_DrawTogglesCoveredPixels :
    (0 : Fin 16) = 0 ∧ InsideMemory cornerSprite 1 ∧
    Covers cornerSprite 63 31 1 31 63 ∧ ¬ Covers cornerSprite 63 31 1 31 62 ∧
    (∃ py px, Covers (lit 31 63 cornerSprite) 63 31 1 py px ∧
      (lit 31 63 cornerSprite).disp.get py px = true) ∧
    ¬ (∃ py px, Covers cornerSprite 63 31 1 py px ∧ cornerSprite.disp.get py px = true) :=
  ⟨rfl, show (0xFFF : Nat) + 0 + 1 ≤ 0x1000 by decide, cornerSprite_covers, cornerSprite_not_covers,
   ⟨31, 63, cornerSprite_covers_lit, by decide⟩, cornerSprite_no_collision⟩
theorem witness_DrawTwiceRestoresDisplay :
    (0 : Reg) ≠ 15 ∧ (1 : Reg) ≠ 15 ∧ InsideMemory cornerSprite 1 ∧
    Covers cornerSprite 63 31 1 31 63 ∧ cornerSprite.disp.get 31 63 = false :=
  ⟨by decide, by decide, show (0xFFF : Nat) + 0 + 1 ≤ 0x1000 by decide, cornerSprite_covers, by decide⟩
theorem witness_DrawOutsideGridIsInvisible :
    InsideMemory (regs [(0, 64), (1, 32)]) 15 ∧ 64 ≤ ((regs [(0, 64), (1, 32)]).getV 0).toNat ∧
    32 ≤ ((regs [(0, 64), (1, 32)]).getV 1).toNat :=
  ⟨show (0 : Nat) + 0 + 15 ≤ 0x1000 by decide, by decide, by decide⟩
/-- The key named is pressed in one state and not in the other. -/
theorem witness_KeySkipsReadNamedKey :
    ((regs [(2, 15)]).getV 2).toNat < 16 ∧ (regs [(2, 15)]).getKey 15 = false ∧
    ((keySet 15 true (regs [(2, 15)])).getV 2).toNat < 16 ∧
    (keySet 15 true (regs [(2, 15)])).getKey 15 = true := by decide
theorem witness_KeyNumberAbove15LatchesError : 15 < ((regs [(2, 16)]).getV 2).toNat := by decide
theorem witness_TickCountsBothTimersDown :
    (Running State.reset ∧ State.reset.dt = 0 ∧ State.reset.st = 0) ∧
    let s := (State.reset.setDt 1).setSt 255
    Running s ∧ s.dt ≠ 0 ∧ s.st ≠ 0 :=
  ⟨⟨rfl, rfl, rfl⟩, rfl, by decide, by decide⟩
theorem witness_LoadCopiesImage :
    State.reset.mem.wf = true ∧ (List.replicate 3584 (0xAA : Byte)).length ≤ 3584 ∧
    3583 < (List.replicate 3584 (0xAA : Byte)).length ∧
    3584 < (List.replicate 3585 (0xAA : Byte)).length := by
  refine ⟨rfl, ?_, ?_, ?_⟩ <;> rw [List.length_replicate] <;> decide
theorem witness_FirstStepAfterLoadRunsImage :
    (List.replicate 3582 (0xAA : Byte)).length ≤ 3582 ∧ decode 0x1F 0xFF = .ok (.jp 0xFFF) :=
  ⟨by rw [List.length_replicate], by decide⟩
/-- Each element that some instruction changes is changed by the instruction named. -/
theorem witness_WritersOfEachElement :
    (∃ t, exec (.addReg 0 1) (regs [(0, 0xFF), (1, 1)]) = .next t ∧
      t.getV 15 ≠ (regs [(0, 0xFF), (1, 1)]).getV 15) ∧
    (∃ t, exec (.jp 0x300) State.reset = .next t ∧ t.pc ≠ State.reset.pc + 2) ∧
    (∃ t, exec (.se 0 0) State.reset = .next t ∧ t.pc ≠ State.reset.pc + 2) ∧
    (∃ t, exec (.ret 0) State.reset = .next t ∧ t.pc ≠ State.reset.pc + 2 ∧
      t.err ≠ State.reset.err) ∧
    (∃ t, exec (.ldB 0) ((regs [(0, 1)]).setI 0xFFB) = .next t ∧
      t.mem.read 0xFFD ≠ ((regs [(0, 1)]).setI 0xFFB).mem.read 0xFFD) ∧
    (∃ t, exec (.drw 0 1 1) cornerSprite = .next t ∧
      t.disp.get 31 63 ≠ cornerSprite.disp.get 31 63) ∧
    (∃ t, exec (.call 0x300) (deep 15) = .next t ∧ t.depth ≠ (deep 15).depth ∧
      t.getStack 15 ≠ (deep 15).getStack 15) ∧
    (∃ t, exec (.ret 0) (deep 1) = .next t ∧ t.depth ≠ (deep 1).depth) ∧
    (∃ t, exec (.ldI 0xFFF) State.reset = .next t ∧ t.i ≠ State.reset.i) ∧
    (∃ t, exec (.ldDtVx 0) (regs [(0, 1)]) = .next t ∧ t.dt ≠ (regs [(0, 1)]).dt) ∧
    (∃ t, exec (.ldStVx 0) (regs [(0, 1)]) = .next t ∧ t.st ≠ (regs [(0, 1)]).st) ∧
    (∃ t, exec (.rnd 0 0) State.reset = .next t ∧ t.draws ≠ State.reset.draws) :=
  ⟨⟨_, rfl, by decide⟩, ⟨_, rfl, by decide⟩, ⟨_, rfl, by decide⟩, ⟨_, rfl, by decide, by decide⟩,
   ⟨_, rfl, by decide⟩, ⟨_, rfl, by decide +kernel⟩, ⟨_, rfl, by decide, by decide⟩,
   ⟨_, rfl, by decide⟩, ⟨_, rfl, by decide⟩, ⟨_, rfl, by decide⟩, ⟨_, rfl, by decide⟩,
   ⟨_, rfl, by decide⟩⟩
theorem witness_StepKeepsInvariant :
    Inv defaultConfig edgeState ∧ ∃ t, step edgeState = .next t := ⟨edgeState_inv, _, rfl⟩
theorem witness_TransactionKeepsInvariant :
    (Inv defaultConfig edgeState ∧ ∃ t, transact defaultConfig .tick edgeState = .next t) ∧
    Reachable defaultConfig (keySet 15 true (resetWith defaultConfig)) :=
  ⟨⟨edgeState_inv, _, rfl⟩, .next (.keySet 15 true) .reset rfl⟩
theorem witness_HaltedUntilReset :
    let trs : List Transaction := [.step, .tick, .load [0x12, 0x00], .keySet 15 true]
    haltedState.mem.wf = true ∧ ¬ Running haltedState ∧ Transaction.reset ∉ trs ∧
      ∃ t, history defaultConfig trs haltedState = .next t :=
  ⟨rfl, haltedState_not_running, by simp, _, rfl⟩
theorem witness_AddZeroIsNoOp :
    let s := bytes 0xFFE [0x70, 0x00] ((regs [(0, 0xFF)]).setPc 0xFFE)
    Running s ∧ s.pc.toNat ≤ 0xFFE ∧ s.mem.read s.pc.toNat = 0x70 ∧
      s.mem.read (s.pc.toNat + 1) = 0x00 := ⟨rfl, by decide, by decide, by decide⟩
/-- Both sides of the equivalence: alike and equal, alike and not equal. -/
theorem witness_AssemblyNamesOneInstruction :
    assembly (.ret 0) = assembly (.ret 15) ∧ assembly (.jp 0xFFF) = assembly (.jp 0xFFF) := ⟨rfl, rfl⟩

end Sys2Proof.Tests
end

/-! ## Which instructions change which element (O47)

`exec_cases` says once what an instruction can do. Read backwards it says: an element other than `ERR`
that changed is one the instruction is listed with in `Writes`. What remains is to read `Writes` from
the element's side. -/

namespace Sys2Proof.Machine

/-- An error changes `ERR` alone (R124), so any other element that changed is one the instruction
writes. -/
theorem writes_of_exec_changed {i : Instr} {s t : State} (h : exec i s = .next t) {e : Element}
    (he : e ≠ .err) (hc : ¬ e.same s t) : Writes i e := by
  rcases exec_cases i s t h with ⟨k, addr, rfl, -⟩ | ⟨hw, -⟩
  · exact absurd (raise_onlyChanges k _ addr s e he) hc
  · by_contra hn
    exact hc (hw e hn)

/-- The writers of `V[r]`: by name (R10), as one of the registers up to `x` (R93), or as the flag (R11). -/
theorem Writes.v_cases {i : Instr} {r : Reg} (h : Writes i (.v r)) :
    (∃ kk, i = .ldImm r kk ∨ i = .addImm r kk ∨ i = .rnd r kk) ∨
    (∃ y, i = .ldReg r y ∨ i = .andReg r y) ∨ i = .ldVxDt r ∨ (∃ x, r ≤ x ∧ i = .ldVxI x) ∨
    (∃ x y, (r = x ∨ r = 15) ∧ (i = .addReg x y ∨ i = .subReg x y)) ∨
    (r = 15 ∧ ∃ x y n, i = .drw x y n) := by
  cases i with
  | ldImm x kk | addImm x kk | rnd x kk | ldReg x y | andReg x y | ldVxDt x =>
    have hr : r = x := by simpa [Writes] using h
    simp [hr]
  | addReg x y | subReg x y =>
    have hr : r = x ∨ r = 15 := by simpa [Writes] using h
    exact .inr (.inr (.inr (.inr (.inl ⟨x, y, hr, by simp⟩))))
  | drw x y n =>
    have hr : r = 15 := by simpa [Writes] using h
    exact .inr (.inr (.inr (.inr (.inr ⟨hr, x, y, n, rfl⟩))))
  | ldVxI x =>
    have hr : r ≤ x := by simpa [Writes] using h
    exact .inr (.inr (.inr (.inl ⟨x, hr, rfl⟩)))
  | _ => simp [Writes] at h

theorem Writes.mem_cases {i : Instr} {a : Nat} (h : Writes i (.mem a)) : ∃ x, i = .ldB x := by
  cases i with
  | ldB x => exact ⟨x, rfl⟩
  | _ => simp [Writes] at h

theorem Writes.disp_cases {i : Instr} {y : Fin 32} {x : Fin 64} (h : Writes i (.disp y x)) :
    ∃ x y n, i = .drw x y n := by
  cases i with
  | drw x y n => exact ⟨x, y, n, rfl⟩
  | _ => simp [Writes] at h

theorem Writes.sp_cases {i : Instr} (h : Writes i .sp) :
    (∃ nnn, i = .call nnn) ∨ ∃ ign, i = .ret ign := by
  cases i with
  | call nnn => exact .inl ⟨nnn, rfl⟩
  | ret ign => exact .inr ⟨ign, rfl⟩
  | _ => simp [Writes] at h

theorem Writes.stack_cases {i : Instr} {k : Fin 16} (h : Writes i (.stack k)) :
    ∃ nnn, i = .call nnn := by
  cases i with
  | call nnn => exact ⟨nnn, rfl⟩
  | _ => simp [Writes] at h

theorem Writes.i_cases {i : Instr} (h : Writes i .i) : (∃ nnn, i = .ldI nnn) ∨ ∃ x, i = .ldF x := by
  cases i with
  | ldI nnn => exact .inl ⟨nnn, rfl⟩
  | ldF x => exact .inr ⟨x, rfl⟩
  | _ => simp [Writes] at h

theorem Writes.dt_cases {i : Instr} (h : Writes i .dt) : ∃ x, i = .ldDtVx x := by
  cases i with
  | ldDtVx x => exact ⟨x, rfl⟩
  | _ => simp [Writes] at h

theorem Writes.st_cases {i : Instr} (h : Writes i .st) : ∃ x, i = .ldStVx x := by
  cases i with
  | ldStVx x => exact ⟨x, rfl⟩
  | _ => simp [Writes] at h

theorem Writes.draws_cases {i : Instr} (h : Writes i .draws) : ∃ x kk, i = .rnd x kk := by
  cases i with
  | rnd x kk => exact ⟨x, kk, rfl⟩
  | _ => simp [Writes] at h

/-- No instruction writes a key: only `KEY_SET` does (R115). -/
theorem not_writes_key (i : Instr) (k : Fin 16) : ¬ Writes i (.key k) := by
  cases i <;> simp [Writes]

/-- An instruction that goes on, but not at `PC + 2`, is a jump or a taken skip (R13, R76). -/
theorem Continues.pc_cases {i : Instr} {s t : State} (h : Continues i s t) (hpc : t.pc ≠ s.pc + 2) :
    (∃ nnn, i = .jp nnn ∨ i = .call nnn) ∨ (∃ ign, i = .ret ign) ∨
    (t.pc = s.pc + 2 + 2 ∧
      ((∃ x kk, i = .se x kk ∨ i = .sne x kk) ∨ ∃ x, i = .skp x ∨ i = .sknp x)) := by
  cases i with
  | jp nnn => exact .inl ⟨nnn, .inl rfl⟩
  | call nnn => exact .inl ⟨nnn, .inr rfl⟩
  | ret ign => exact .inr (.inl ⟨ign, rfl⟩)
  | se x kk => exact .inr (.inr ⟨h.resolve_left hpc, .inl ⟨x, kk, .inl rfl⟩⟩)
  | sne x kk => exact .inr (.inr ⟨h.resolve_left hpc, .inl ⟨x, kk, .inr rfl⟩⟩)
  | skp x => exact .inr (.inr ⟨h.resolve_left hpc, .inr ⟨x, .inl rfl⟩⟩)
  | sknp x => exact .inr (.inr ⟨h.resolve_left hpc, .inr ⟨x, .inr rfl⟩⟩)
  | _ => exact absurd h hpc

/-- `PC` is at `PC + 2` after an instruction, or it jumped, skipped, or raised an error that leaves `PC`
where it was (R13, R124). -/
theorem exec_pc_cases {i : Instr} {s t : State} (h : exec i s = .next t) (hpc : t.pc ≠ s.pc + 2) :
    (∃ nnn, i = .jp nnn ∨ i = .call nnn) ∨ (∃ ign, i = .ret ign) ∨
    (t.pc = s.pc + 2 + 2 ∧
      ((∃ x kk, i = .se x kk ∨ i = .sne x kk) ∨ ∃ x, i = .skp x ∨ i = .sknp x)) ∨
    (t.pc = s.pc ∧ t.err.valid = true ∧ ∃ e : ErrKind, t.err.code = e.code ∧ e.RaisedBy i) := by
  rcases exec_cases i s t h with ⟨e, addr, rfl, he⟩ | ⟨-, hcont⟩
  · exact .inr (.inr (.inr ⟨rfl, rfl, e, rfl, he⟩))
  · rcases hcont.pc_cases hpc with hjump | hret | hskip
    · exact .inl hjump
    · exact .inr (.inl hret)
    · exact .inr (.inr (.inl hskip))

/-- Settles O47: every clause reads `exec_cases` from the side of one element. -/
theorem writersOfEachElement : Obligations.WritersOfEachElement := by
  unfold Obligations.WritersOfEachElement
  intro i s t h
  have changed (e : Element) (he : e ≠ .err) (hc : ¬ e.same s t) : Writes i e :=
    writes_of_exec_changed h he hc
  refine ⟨fun r hc => (changed (.v r) nofun hc).v_cases, exec_pc_cases h, fun hc => ?_,
    fun ⟨a, hc⟩ => (changed (.mem a) nofun hc).mem_cases,
    fun ⟨y, x, hc⟩ => (changed (.disp y x) nofun hc).disp_cases,
    fun hc => (changed .sp nofun hc).sp_cases,
    fun ⟨k, hc⟩ => (changed (.stack k) nofun hc).stack_cases,
    fun hc => (changed .i nofun hc).i_cases, fun hc => (changed .dt nofun hc).dt_cases,
    fun hc => (changed .st nofun hc).st_cases, fun hc => (changed .draws nofun hc).draws_cases,
    fun k => ?_⟩
  · obtain ⟨e, addr, rfl, he⟩ := (exec_err_cases i s t h).resolve_left hc
    exact ⟨e, rfl, rfl, he⟩
  · by_contra hc
    exact not_writes_key i k (changed (.key k) nofun hc)

end Sys2Proof.Machine

/-! ## The no-op idiom `ADD V0, 0` (O52) -/

namespace Sys2Proof.Machine

/-- A running machine runs the instruction it fetches (R52): of the four things a step does, the fetch
rules out the other three. -/
theorem step_of_fetches {s : State} {i : Instr} (hr : Running s) (hf : Fetches s i) :
    step s = exec i s := by
  obtain ⟨hpc, hd⟩ := hf
  rcases step_cases s with ⟨hv, -⟩ | ⟨-, hgt, -⟩ | ⟨-, -, hd', -⟩ | ⟨j, -, ⟨-, hd'⟩, hs⟩
  · exact absurd (hr.symm.trans hv) Bool.false_ne_true
  · exact absurd hpc (Nat.not_le.2 hgt)
  · exact nomatch hd.symm.trans hd'
  · obtain rfl : i = j := Except.ok.inj (hd.symm.trans hd')
    exact hs

/-- Adding 0 writes back the value that was read, so only `PC` moves (R81). -/
theorem exec_addImm_zero (x : Reg) (s : State) :
    exec (.addImm x 0) s = .next { s with pc := s.pc + 2 } := by
  calc exec (.addImm x 0) s = .next (s.setV x (sumByte (s.getV x) 0)).advance := rfl
    _ = .next s.advance := by rw [sumByte_zero, State.setV_getV]

/-- Settles O52: the idiom is fetched as `ADD V0, 0`, and adding 0 moves `PC` alone. -/
theorem addZeroIsNoOp : Obligations.AddZeroIsNoOp := by
  unfold Obligations.AddZeroIsNoOp
  have hdec : decode 0x70 0x00 = .ok (.addImm 0 0) := by decide
  refine ⟨hdec, exec_addImm_zero, fun s hr hpc h1 h2 => ?_⟩
  have hf : Fetches s (.addImm 0 0) := ⟨hpc, by rw [h1, h2, hdec]⟩
  exact (step_of_fetches hr hf).trans (exec_addImm_zero 0 s)

end Sys2Proof.Machine

/-! ## A spelling names one instruction (O53)

`assemble` reads a line back. It undoes `assembly` up to `RET`'s ignored nibble, so two instructions
spelled alike are read back as the same one. -/

namespace Sys2Proof.Machine

/-- The instruction that an assembly line names, if it names one; `RET` is placed as 0x00EE (R61;
log 13). A numeral is cut to the width of its field. -/
def assemble : AsmLine → Option Instr
  | ⟨"RET", []⟩ => some (.ret 0)
  | ⟨"JP", [.num n]⟩ => some (.jp (BitVec.ofNat 12 n))
  | ⟨"CALL", [.num n]⟩ => some (.call (BitVec.ofNat 12 n))
  | ⟨"SE", [.reg x, .num n]⟩ => some (.se x (BitVec.ofNat 8 n))
  | ⟨"SNE", [.reg x, .num n]⟩ => some (.sne x (BitVec.ofNat 8 n))
  | ⟨"ADD", [.reg x, .num n]⟩ => some (.addImm x (BitVec.ofNat 8 n))
  | ⟨"ADD", [.reg x, .reg y]⟩ => some (.addReg x y)
  | ⟨"AND", [.reg x, .reg y]⟩ => some (.andReg x y)
  | ⟨"SUB", [.reg x, .reg y]⟩ => some (.subReg x y)
  | ⟨"RND", [.reg x, .num n]⟩ => some (.rnd x (BitVec.ofNat 8 n))
  | ⟨"DRW", [.reg x, .reg y, .num n]⟩ => some (.drw x y (Fin.ofNat 16 n))
  | ⟨"SKP", [.reg x]⟩ => some (.skp x)
  | ⟨"SKNP", [.reg x]⟩ => some (.sknp x)
  | ⟨"LD", [.reg x, .num n]⟩ => some (.ldImm x (BitVec.ofNat 8 n))
  | ⟨"LD", [.reg x, .reg y]⟩ => some (.ldReg x y)
  | ⟨"LD", [.reg x, .name .delayTimer]⟩ => some (.ldVxDt x)
  | ⟨"LD", [.reg x, .name .atIndex]⟩ => some (.ldVxI x)
  | ⟨"LD", [.name .index, .num n]⟩ => some (.ldI (BitVec.ofNat 12 n))
  | ⟨"LD", [.name .delayTimer, .reg x]⟩ => some (.ldDtVx x)
  | ⟨"LD", [.name .soundTimer, .reg x]⟩ => some (.ldStVx x)
  | ⟨"LD", [.name .font, .reg x]⟩ => some (.ldF x)
  | ⟨"LD", [.name .bcd, .reg x]⟩ => some (.ldB x)
  | _ => none

theorem assembly_ret (a b : Nibble) : assembly (.ret a) = assembly (.ret b) := rfl

/-- Reading back a spelling gives the instruction, or it is `RET` and its ignored nibble reads as 0
(R56). -/
theorem assemble_assembly (i : Instr) :
    assemble (assembly i) = some i ∨ ∃ a, i = .ret a ∧ assemble (assembly i) = some (.ret 0) := by
  cases i with
  | ret a => exact .inr ⟨a, rfl, rfl⟩
  | _ => exact .inl (by simp [assembly, assemble])

/-- Settles O53: instructions spelled alike are read back as the same one (`assemble_assembly`). -/
theorem assemblyNamesOneInstruction : Obligations.AssemblyNamesOneInstruction := by
  unfold Obligations.AssemblyNamesOneInstruction
  intro i j
  constructor
  · intro h
    have hread : assemble (assembly i) = assemble (assembly j) := congrArg assemble h
    rcases assemble_assembly i with hi | ⟨a, rfl, hi⟩ <;>
      rcases assemble_assembly j with hj | ⟨b, rfl, hj⟩ <;>
      rw [hi, hj, Option.some.injEq] at hread
    · exact .inl hread
    · exact .inr ⟨0, b, hread, rfl⟩
    · exact .inr ⟨a, 0, rfl, hread.symm⟩
    · exact .inr ⟨a, b, rfl, rfl⟩
  · rintro (rfl | ⟨a, b, rfl, rfl⟩)
    · rfl
    · exact assembly_ret a b

end Sys2Proof.Machine

/-! ## The skips on a register and an immediate (O17, O18)

`SE` and `SNE` are `skipIf` on a test and on its negation, so what `skipIf` does is said once. -/

namespace Sys2Proof.Machine

theorem exec_se (x : Reg) (kk : Byte) (s : State) :
    exec (.se x kk) s = .next (s.skipIf (s.getV x == kk)) := rfl

theorem exec_sne (x : Reg) (kk : Byte) (s : State) :
    exec (.sne x kk) s = .next (s.skipIf (s.getV x != kk)) := rfl

/-- `skipIf` writes `PC` alone (R76). -/
theorem skipIf_onlyChanges (s : State) (cond : Bool) : OnlyChanges (· = .pc) s (s.skipIf cond) :=
  setPc_onlyChanges s _

/-- The address after the next instruction is not the next one, though the sums wrap at 16 bits, so
`PC` tells whether the skip was taken. -/
theorem skipIf_pc_eq_skipped_iff (s : State) (cond : Bool) :
    (s.skipIf cond).pc = s.pc + 2 + 2 ↔ cond = true := by
  have hne : s.pc + 2 ≠ s.pc + 2 + 2 := by bv_omega
  cases cond with
  | true => exact iff_of_true rfl rfl
  | false => exact iff_of_false hne Bool.false_ne_true

/-- Settles O17: `SE` is `skipIf` on equality. -/
theorem skipIfEqualWritesPc : Obligations.SkipIfEqualWritesPc := by
  unfold Obligations.SkipIfEqualWritesPc
  intro x kk s
  refine ⟨_, exec_se x kk s, ?_, skipIf_onlyChanges s _⟩
  simp [State.npc]

/-- Settles O18: `SNE` is `skipIf` on the negation of `SE`'s test, and `PC` tells which test held. -/
theorem skipIfNotEqualWritesPc : Obligations.SkipIfNotEqualWritesPc := by
  unfold Obligations.SkipIfNotEqualWritesPc
  intro x kk s
  refine ⟨_, exec_sne x kk s, ?_, skipIf_onlyChanges s _, _, exec_se x kk s, ?_⟩
  · simp [State.npc]
  · rw [Ne, skipIf_pc_eq_skipped_iff, skipIf_pc_eq_skipped_iff, bne_iff_ne, beq_iff_eq]

end Sys2Proof.Machine

/-! ## Instructions that write one register and go on (O19 to O22)

Each of the four ends with `(s.setV x b).advance`, so its result, its `PC` and its frame are said once,
for every such instruction; the obligations differ in the byte `b`. -/

namespace Sys2Proof.Machine

theorem exec_ldImm (x : Reg) (kk : Byte) (s : State) :
    exec (.ldImm x kk) s = .next (s.setV x kk).advance := rfl

theorem exec_addImm (x : Reg) (kk : Byte) (s : State) :
    exec (.addImm x kk) s = .next (s.setV x (sumByte (s.getV x) kk)).advance := rfl

theorem exec_ldReg (x y : Reg) (s : State) :
    exec (.ldReg x y) s = .next (s.setV x (s.getV y)).advance := rfl

theorem exec_andReg (x y : Reg) (s : State) :
    exec (.andReg x y) s = .next (s.setV x (s.getV x &&& s.getV y)).advance := rfl

/-- The whole effect of an instruction that writes `b` to `V[x]` and goes on (R52): `x = 15` is no
exception, and no flag is written. -/
theorem exec_writes_register {i : Instr} {s : State} {x : Reg} {b : Byte}
    (h : exec i s = .next (s.setV x b).advance) :
    ∃ t, exec i s = .next t ∧ t.getV x = b ∧ t.pc = s.pc + 2 ∧
      OnlyChanges (fun e => e = .v x ∨ e = .pc) s t := by
  refine ⟨_, h, ?_, ?_, setV_advance_onlyChanges s x b⟩
  · rw [State.getV_advance, State.getV_setV_same]
  · rw [State.advance_pc, State.setV_pc]

/-- Settles O19: the byte written is `kk`. -/
theorem loadImmediateWritesRegister : Obligations.LoadImmediateWritesRegister := by
  unfold Obligations.LoadImmediateWritesRegister
  intro x kk s
  exact exec_writes_register (exec_ldImm x kk s)

/-- Settles O20: the byte written is `sumByte`, the sum modulo 256. -/
theorem addImmediateWraps : Obligations.AddImmediateWraps := by
  unfold Obligations.AddImmediateWraps
  intro x kk s
  obtain ⟨t, ht, hv, hpc, hframe⟩ := exec_writes_register (exec_addImm x kk s)
  exact ⟨t, ht, hv ▸ sumByte_toNat _ _, hpc, hframe⟩

/-- Settles O21: the byte written is the old `V[y]`. -/
theorem copyRegisterWritesDestination : Obligations.CopyRegisterWritesDestination := by
  unfold Obligations.CopyRegisterWritesDestination
  intro x y s
  exact exec_writes_register (exec_ldReg x y s)

/-- Settles O22: the byte written is `&&&` of the two registers, which acts on each bit alone. -/
theorem andRegistersKeepsCommonBits : Obligations.AndRegistersKeepsCommonBits := by
  unfold Obligations.AndRegistersKeepsCommonBits
  intro x y s
  obtain ⟨t, ht, hv, hpc, hframe⟩ := exec_writes_register (exec_andReg x y s)
  exact ⟨t, ht, fun k => by rw [hv, BitVec.getLsbD_and], hpc, hframe⟩

end Sys2Proof.Machine

/-! ## `LD I, nnn` (O26) -/

namespace Sys2Proof.Machine

theorem exec_ldI (nnn : Addr) (s : State) :
    exec (.ldI nnn) s = .next (s.setI (addrOperand nnn)).advance := rfl

/-- Writing `I` changes `I` alone (R12). -/
theorem setI_onlyChanges (s : State) (a : Word) : OnlyChanges (· = .i) s (s.setI a) := by
  intro e he
  cases e with
  | i => exact absurd rfl he
  | _ => rfl

/-- The whole effect of an instruction that writes `a` to `I` and goes on (R52): no range check stands
between the operand and `I`. -/
theorem exec_writes_index {i : Instr} {s : State} {a : Word}
    (h : exec i s = .next (s.setI a).advance) :
    ∃ t, exec i s = .next t ∧ t.i = a ∧ t.pc = s.pc + 2 ∧
      OnlyChanges (fun e => e = .i ∨ e = .pc) s t := by
  refine ⟨_, h, ?_, ?_, (setI_onlyChanges s a).trans (setPc_onlyChanges _ _)⟩
  · rw [State.advance_i, State.setI_i]
  · rw [State.advance_pc, State.setI_pc]

/-- Settles O26: the word written is the 12-bit operand, zero-extended (R90). -/
theorem loadIndexWritesI : Obligations.LoadIndexWritesI := by
  unfold Obligations.LoadIndexWritesI
  intro nnn s
  obtain ⟨t, ht, hi, hpc, hframe⟩ := exec_writes_index (exec_ldI nnn s)
  exact ⟨t, ht, hi ▸ addrOperand_toNat nnn, hpc, hframe⟩

end Sys2Proof.Machine

/-! ## The timer instructions (O39 to O41)

`LD Vx, DT` is one more instruction that writes one register and goes on; `LD DT, Vx` and `LD ST, Vx`
write a timer instead, and need the frame of that write. -/

namespace Sys2Proof.Machine

theorem exec_ldVxDt (x : Reg) (s : State) :
    exec (.ldVxDt x) s = .next (s.setV x s.dt).advance := rfl

theorem exec_ldDtVx (x : Reg) (s : State) :
    exec (.ldDtVx x) s = .next (s.setDt (s.getV x)).advance := rfl

theorem exec_ldStVx (x : Reg) (s : State) :
    exec (.ldStVx x) s = .next (s.setSt (s.getV x)).advance := rfl

/-- Writing `DT` changes `DT` alone (R17). -/
theorem setDt_onlyChanges (s : State) (b : Byte) : OnlyChanges (· = .dt) s (s.setDt b) := by
  intro e he
  cases e with
  | dt => exact absurd rfl he
  | _ => rfl

/-- Writing `ST` changes `ST` alone (R18). -/
theorem setSt_onlyChanges (s : State) (b : Byte) : OnlyChanges (· = .st) s (s.setSt b) := by
  intro e he
  cases e with
  | st => exact absurd rfl he
  | _ => rfl

/-- Settles O39: the byte written is `DT` (R112). -/
theorem readDelayTimerWritesRegister : Obligations.ReadDelayTimerWritesRegister := by
  unfold Obligations.ReadDelayTimerWritesRegister
  intro x s
  exact exec_writes_register (exec_ldVxDt x s)

/-- Settles O40: `DT` is written, then `PC` goes on (R113). -/
theorem setDelayTimerWritesDt : Obligations.SetDelayTimerWritesDt := by
  unfold Obligations.SetDelayTimerWritesDt
  intro x s
  refine ⟨_, exec_ldDtVx x s, ?_, ?_, (setDt_onlyChanges s _).trans (setPc_onlyChanges _ _)⟩
  · rw [State.advance_dt, State.setDt_dt]
  · rw [State.advance_pc, State.setDt_pc]

/-- Settles O41: `ST` is written, then `PC` goes on (R114). -/
theorem setSoundTimerWritesSt : Obligations.SetSoundTimerWritesSt := by
  unfold Obligations.SetSoundTimerWritesSt
  intro x s
  refine ⟨_, exec_ldStVx x s, ?_, ?_, (setSt_onlyChanges s _).trans (setPc_onlyChanges _ _)⟩
  · rw [State.advance_st, State.setSt_st]
  · rw [State.advance_pc, State.setSt_pc]

end Sys2Proof.Machine

/-! ## The encoder and the decoder undo each other (O1 to O4)

An instruction's word determines its fields, and the fields select the instruction (`select_encode`). The
other way round the selection fixes the fields that are no operand (`encode_of_select`). Together they say
that `decode` and `encode` are inverse on words (`decode_ok_iff_encode`). -/

namespace Sys2Proof.Machine

/-- The fields of an instruction's word select that instruction (R50, R53). -/
theorem select_encode (i : Instr) :
    select (fieldsOf (hiByte (encode i)) (loByte (encode i))) = some i := by
  cases i with
  | jp nnn | call nnn | ldI nnn =>
    simp [encode, select, fieldsOf_wordA]
  | ldReg x y | andReg x y | addReg x y | subReg x y | drw x y n =>
    simp [encode, select, selectFamily8, fieldsOf_wordOfNibbles]
  | _ => simp [encode, select, selectFamilyE, selectFamilyF, fieldsOf_wordXK]

theorem decode_encode (i : Instr) : decode (hiByte (encode i)) (loByte (encode i)) = .ok i :=
  (decode_ok_iff _ _ i).2 (select_encode i)

/-- Settles O3: the fields of an instruction's word select it (`select_encode`). -/
theorem decodeOfEncodeIsIdentity : Obligations.DecodeOfEncodeIsIdentity := by
  unfold Obligations.DecodeOfEncodeIsIdentity
  intro i _
  exact decode_encode i

/-- A nibble is the number it reads as. -/
theorem nibble_eq_of_toNat {n : Nibble} {k : Nat} (h : n.toNat = k) : n = BitVec.ofNat 4 k := by
  rw [← h, BitVec.ofNat_toNat, BitVec.setWidth_eq]

theorem wordA_append (a b : Nibble) (k : Byte) : wordA a (b ++ k : Addr) = wordXK a b k :=
  append_assoc_word a b k

/-- A byte is its two nibbles. -/
theorem nibbles_append (b : Byte) : (b.extractLsb' 4 4 ++ b.extractLsb' 0 4 : Byte) = b :=
  extractLsb'_append_self (m := 4) (n := 4) b

theorem encode_of_selectFamily8 {n2 : Nibble} {b2 : Byte} {i : Instr}
    (h : selectFamily8 (regOfNibble n2) (regOfNibble (b2.extractLsb' 4 4)) (b2.extractLsb' 0 4) = some i) :
    encode i = wordXK 0x8 n2 b2 := by
  have hb : b2 = (b2.extractLsb' 4 4 ++ b2.extractLsb' 0 4 : Byte) := (nibbles_append b2).symm
  rw [hb, ← wordOfNibbles_eq]
  unfold selectFamily8 at h
  split_ifs at h with h4 h4 h4 h4 <;> cases h <;> simp [encode, h4]

theorem encode_of_selectFamilyE {n2 : Nibble} {b2 : Byte} {i : Instr}
    (h : selectFamilyE (regOfNibble n2) b2 = some i) : encode i = wordXK 0xE n2 b2 := by
  unfold selectFamilyE at h
  split_ifs at h with hb hb <;> cases h <;> simp [encode, hb]

theorem encode_of_selectFamilyF {n2 : Nibble} {b2 : Byte} {i : Instr}
    (h : selectFamilyF (regOfNibble n2) b2 = some i) : encode i = wordXK 0xF n2 b2 := by
  unfold selectFamilyF at h
  split_ifs at h with hb hb hb hb hb hb <;> cases h <;> simp [encode, hb]

/-- The selection fixes every field that is no operand, so the word is the instruction's (R53). -/
theorem encode_of_select {b1 b2 : Byte} {i : Instr} (h : select (fieldsOf b1 b2) = some i) :
    encode i = wordXK (fieldsOf b1 b2).n1 (fieldsOf b1 b2).n2 b2 := by
  unfold select at h
  dsimp only at h
  split at h
  case h_1 hn =>
    split_ifs at h with hb
    cases h
    have hb' : b2 = 0xEE := hb
    rw [nibble_eq_of_toNat hn, hb']
    rfl
  case h_2 hn | h_3 hn | h_9 hn =>
    cases h
    exact nibble_eq_of_toNat hn ▸ wordA_append _ _ _
  case h_4 hn | h_5 hn | h_6 hn | h_7 hn | h_10 hn =>
    cases h
    rw [nibble_eq_of_toNat hn]
    simp [encode, fieldsOf]
  case h_8 hn => exact nibble_eq_of_toNat hn ▸ encode_of_selectFamily8 h
  case h_11 hn =>
    cases h
    rw [nibble_eq_of_toNat hn]
    simp [encode, fieldsOf, wordOfNibbles_eq, nibbles_append]
  case h_12 hn => exact nibble_eq_of_toNat hn ▸ encode_of_selectFamilyE h
  case h_13 hn => exact nibble_eq_of_toNat hn ▸ encode_of_selectFamilyF h
  case h_14 => cases h

/-- The decoder answers an instruction exactly at that instruction's word. -/
theorem decode_ok_iff_encode (b1 b2 : Byte) (i : Instr) : decode b1 b2 = .ok i ↔ encode i = b1 ++ b2 := by
  constructor
  · intro h
    rw [append_eq_wordXK]
    exact encode_of_select ((decode_ok_iff b1 b2 i).1 h)
  · intro h
    have hd := decode_encode i
    rwa [h, hiByte_append, loByte_append] at hd

/-- Settles O4: the selection fixes every field that is no operand (`encode_of_select`). -/
theorem encodeOfDecodeIsIdentity : Obligations.EncodeOfDecodeIsIdentity := by
  unfold Obligations.EncodeOfDecodeIsIdentity
  intro b1 b2 i
  exact (decode_ok_iff_encode b1 b2 i).1

/-- Settles O1: the decoder runs on the sixteen words. -/
theorem sampleWordsDecode : Obligations.SampleWordsDecode := by
  unfold Obligations.SampleWordsDecode
  decide

/-- Settles O2: every instruction's word is of one of three formats, whose values are known. -/
theorem encodedWordsFollowPatterns : Obligations.EncodedWordsFollowPatterns := by
  unfold Obligations.EncodedWordsFollowPatterns
  intro ign nnn kk x y n
  constructorm* _ ∧ _ <;>
    simp only [encode, wordA_toNat, wordXK_toNat, wordOfNibbles_toNat, nibbleOfReg_toNat,
      BitVec.reduceToNat] <;>
    omega

end Sys2Proof.Machine

/-! ## The decoder and the opcode map (O5)

A row selects exactly the words of its own format, so each of them is the word of an instruction of that
row; with `decode_ok_iff_encode` the decoder's answers are the rows' answers. -/

namespace Sys2Proof.Machine

/-- An instruction's own row selects its word (R55). -/
theorem row_selects_encode (i : Instr) : i.row.selects (encode i) = true := by
  cases i with
  | ret ign => exact Laws.SelectsOwnRow.ret ign
  | jp nnn => exact Laws.SelectsOwnRow.jp nnn
  | call nnn => exact Laws.SelectsOwnRow.call nnn
  | se x kk => exact Laws.SelectsOwnRow.se x kk
  | sne x kk => exact Laws.SelectsOwnRow.sne x kk
  | ldImm x kk => exact Laws.SelectsOwnRow.ldImm x kk
  | addImm x kk => exact Laws.SelectsOwnRow.addImm x kk
  | ldReg x y => exact Laws.SelectsOwnRow.ldReg x y
  | andReg x y => exact Laws.SelectsOwnRow.andReg x y
  | addReg x y => exact Laws.SelectsOwnRow.addReg x y
  | subReg x y => exact Laws.SelectsOwnRow.subReg x y
  | ldI nnn => exact Laws.SelectsOwnRow.ldI nnn
  | rnd x kk => exact Laws.SelectsOwnRow.rnd x kk
  | drw x y n => exact Laws.SelectsOwnRow.drw x y n
  | skp x => exact Laws.SelectsOwnRow.skp x
  | sknp x => exact Laws.SelectsOwnRow.sknp x
  | ldVxDt x => exact Laws.SelectsOwnRow.ldVxDt x
  | ldDtVx x => exact Laws.SelectsOwnRow.ldDtVx x
  | ldStVx x => exact Laws.SelectsOwnRow.ldStVx x
  | ldF x => exact Laws.SelectsOwnRow.ldF x
  | ldB x => exact Laws.SelectsOwnRow.ldB x
  | ldVxI x => exact Laws.SelectsOwnRow.ldVxI x

theorem row_mem_opcodeMap (i : Instr) : i.row ∈ opcodeMap := by
  cases i <;> simp [opcodeMap, Instr.row]

/-- Every row of the opcode map is the row of an instruction. -/
theorem exists_row_of_mem_opcodeMap {r : OpcodeRow} (h : r ∈ opcodeMap) : ∃ i : Instr, i.row = r := by
  simp only [opcodeMap, List.cons_append, List.nil_append, List.mem_cons, List.not_mem_nil,
    or_false] at h
  rcases h with h | h | h | h | h | h | h | h | h | h | h | h | h | h | h | h | h | h | h | h | h | h <;>
    exact ⟨_, h.symm⟩

/-- Concatenations of parts of the same widths are equal only part by part. -/
theorem append_inj {m n : Nat} {a a' : BitVec m} {b b' : BitVec n} (h : a ++ b = a' ++ b') :
    a = a' ∧ b = b' := by
  constructor
  · have h' := congrArg (fun w => BitVec.extractLsb' n m w) h
    simpa [BitVec.extractLsb'_append_eq_left] using h'
  · have h' := congrArg (fun w => BitVec.extractLsb' 0 n w) h
    simpa [extractLsb'_append_low] using h'

theorem wordXK_inj {a a' b b' : Nibble} {k k' : Byte} (h : wordXK a b k = wordXK a' b' k') :
    a = a' ∧ b = b' ∧ k = k' := by
  obtain ⟨hab, hk⟩ := append_inj (a := (a ++ b : Byte)) (a' := (a' ++ b' : Byte)) h
  obtain ⟨ha, hb⟩ := append_inj hab
  exact ⟨ha, hb, hk⟩

/-- Every word has the format `XK`, its second nibble read as a register index. -/
theorem exists_eq_wordXK (w : Word) : ∃ a x k, w = wordXK a (nibbleOfReg x) k := by
  refine ⟨(fieldsOf (hiByte w) (loByte w)).n1,
    regOfNibble (fieldsOf (hiByte w) (loByte w)).n2, loByte w, ?_⟩
  rw [nibbleOfReg_regOfNibble, ← append_eq_wordXK, hiByte_append_loByte]

/-- A row that fixes `n1` selects only words with that `n1`. -/
theorem eq_wordXK_of_selects_F000 {a : Nibble} {w : Word}
    (h : OpcodeRow.selects ⟨0xF000, wordXK a 0 0⟩ w = true) : ∃ x k, wordXK a (nibbleOfReg x) k = w := by
  obtain ⟨a', x, k, rfl⟩ := exists_eq_wordXK w
  have hm : (0xF000 : Word) = wordXK 0xF 0 0 := by decide
  rw [OpcodeRow.selects, beq_iff_eq, hm, Laws.wordXK_and] at h
  obtain ⟨ha, -, -⟩ := wordXK_inj h
  have ha' : a' &&& 0xF = a' := BitVec.and_allOnes
  exact ⟨x, k, by rw [← ha, ha']⟩

/-- A row that fixes `n1` and `byteImm` selects only words with these. -/
theorem eq_wordXK_of_selects_F0FF {a : Nibble} {k : Byte} {w : Word}
    (h : OpcodeRow.selects ⟨0xF0FF, wordXK a 0 k⟩ w = true) : ∃ x, wordXK a (nibbleOfReg x) k = w := by
  obtain ⟨a', x, k', rfl⟩ := exists_eq_wordXK w
  have hm : (0xF0FF : Word) = wordXK 0xF 0 0xFF := by decide
  rw [OpcodeRow.selects, beq_iff_eq, hm, Laws.wordXK_and] at h
  obtain ⟨ha, -, hk⟩ := wordXK_inj h
  have ha' : a' &&& 0xF = a' := BitVec.and_allOnes
  have hk' : k' &&& 0xFF = k' := BitVec.and_allOnes
  exact ⟨x, by rw [← ha, ← hk, ha', hk']⟩

/-- A row that fixes `n1` and `n4` selects only words with these. -/
theorem eq_wordOfNibbles_of_selects_F00F {a d : Nibble} {w : Word}
    (h : OpcodeRow.selects ⟨0xF00F, wordOfNibbles a 0 0 d⟩ w = true) :
    ∃ x y, wordOfNibbles a (nibbleOfReg x) (nibbleOfReg y) d = w := by
  obtain ⟨a', x, k, rfl⟩ := exists_eq_wordXK w
  have hm : (0xF00F : Word) = wordXK 0xF 0 ((0 : Nibble) ++ (0xF : Nibble)) := by decide
  rw [OpcodeRow.selects, beq_iff_eq, hm, wordOfNibbles_eq, Laws.wordXK_and, ← nibbles_append k,
    Laws.append_and_append] at h
  obtain ⟨ha, -, hk⟩ := wordXK_inj h
  obtain ⟨-, hd⟩ := append_inj hk
  have ha' : a' &&& 0xF = a' := BitVec.and_allOnes
  have hd' : k.extractLsb' 0 4 &&& 0xF = k.extractLsb' 0 4 := BitVec.and_allOnes
  refine ⟨x, regOfNibble (k.extractLsb' 4 4), ?_⟩
  rw [wordOfNibbles_eq, nibbleOfReg_regOfNibble, ← ha, ← hd, ha', hd', nibbles_append]

theorem eq_wordA_of_selects_F000 {a : Nibble} {w : Word}
    (h : OpcodeRow.selects ⟨0xF000, wordXK a 0 0⟩ w = true) : ∃ nnn, wordA a nnn = w := by
  obtain ⟨x, k, rfl⟩ := eq_wordXK_of_selects_F000 h
  exact ⟨nibbleOfReg x ++ k, wordA_append _ _ _⟩

theorem eq_wordOfNibbles_of_selects_F000 {a : Nibble} {w : Word}
    (h : OpcodeRow.selects ⟨0xF000, wordXK a 0 0⟩ w = true) :
    ∃ x y n, wordOfNibbles a (nibbleOfReg x) (nibbleOfReg y) (nibbleOfReg n) = w := by
  obtain ⟨x, k, rfl⟩ := eq_wordXK_of_selects_F000 h
  refine ⟨x, regOfNibble (k.extractLsb' 4 4), regOfNibble (k.extractLsb' 0 4), ?_⟩
  rw [wordOfNibbles_eq, nibbleOfReg_regOfNibble, nibbleOfReg_regOfNibble, nibbles_append]

/-- A word that an instruction's row selects is the word of an instruction, for the operands are free. -/
theorem exists_encode_of_row_selects :
    ∀ {j : Instr} {w : Word}, j.row.selects w = true → ∃ i, encode i = w
  | .ret _, _, h =>
    let ⟨x, hw⟩ := eq_wordXK_of_selects_F0FF (a := 0x0) (k := 0xEE) h; ⟨.ret (nibbleOfReg x), hw⟩
  | .jp _, _, h => let ⟨nnn, hw⟩ := eq_wordA_of_selects_F000 (a := 0x1) h; ⟨.jp nnn, hw⟩
  | .call _, _, h => let ⟨nnn, hw⟩ := eq_wordA_of_selects_F000 (a := 0x2) h; ⟨.call nnn, hw⟩
  | .se _ _, _, h => let ⟨x, k, hw⟩ := eq_wordXK_of_selects_F000 (a := 0x3) h; ⟨.se x k, hw⟩
  | .sne _ _, _, h => let ⟨x, k, hw⟩ := eq_wordXK_of_selects_F000 (a := 0x4) h; ⟨.sne x k, hw⟩
  | .ldImm _ _, _, h => let ⟨x, k, hw⟩ := eq_wordXK_of_selects_F000 (a := 0x6) h; ⟨.ldImm x k, hw⟩
  | .addImm _ _, _, h => let ⟨x, k, hw⟩ := eq_wordXK_of_selects_F000 (a := 0x7) h; ⟨.addImm x k, hw⟩
  | .ldReg _ _, _, h =>
    let ⟨x, y, hw⟩ := eq_wordOfNibbles_of_selects_F00F (a := 0x8) (d := 0) h; ⟨.ldReg x y, hw⟩
  | .andReg _ _, _, h =>
    let ⟨x, y, hw⟩ := eq_wordOfNibbles_of_selects_F00F (a := 0x8) (d := 2) h; ⟨.andReg x y, hw⟩
  | .addReg _ _, _, h =>
    let ⟨x, y, hw⟩ := eq_wordOfNibbles_of_selects_F00F (a := 0x8) (d := 4) h; ⟨.addReg x y, hw⟩
  | .subReg _ _, _, h =>
    let ⟨x, y, hw⟩ := eq_wordOfNibbles_of_selects_F00F (a := 0x8) (d := 5) h; ⟨.subReg x y, hw⟩
  | .ldI _, _, h => let ⟨nnn, hw⟩ := eq_wordA_of_selects_F000 (a := 0xA) h; ⟨.ldI nnn, hw⟩
  | .rnd _ _, _, h => let ⟨x, k, hw⟩ := eq_wordXK_of_selects_F000 (a := 0xC) h; ⟨.rnd x k, hw⟩
  | .drw _ _ _, _, h =>
    let ⟨x, y, n, hw⟩ := eq_wordOfNibbles_of_selects_F000 (a := 0xD) h; ⟨.drw x y n, hw⟩
  | .skp _, _, h => let ⟨x, hw⟩ := eq_wordXK_of_selects_F0FF (a := 0xE) (k := 0x9E) h; ⟨.skp x, hw⟩
  | .sknp _, _, h => let ⟨x, hw⟩ := eq_wordXK_of_selects_F0FF (a := 0xE) (k := 0xA1) h; ⟨.sknp x, hw⟩
  | .ldVxDt _, _, h => let ⟨x, hw⟩ := eq_wordXK_of_selects_F0FF (a := 0xF) (k := 0x07) h; ⟨.ldVxDt x, hw⟩
  | .ldDtVx _, _, h => let ⟨x, hw⟩ := eq_wordXK_of_selects_F0FF (a := 0xF) (k := 0x15) h; ⟨.ldDtVx x, hw⟩
  | .ldStVx _, _, h => let ⟨x, hw⟩ := eq_wordXK_of_selects_F0FF (a := 0xF) (k := 0x18) h; ⟨.ldStVx x, hw⟩
  | .ldF _, _, h => let ⟨x, hw⟩ := eq_wordXK_of_selects_F0FF (a := 0xF) (k := 0x29) h; ⟨.ldF x, hw⟩
  | .ldB _, _, h => let ⟨x, hw⟩ := eq_wordXK_of_selects_F0FF (a := 0xF) (k := 0x33) h; ⟨.ldB x, hw⟩
  | .ldVxI _, _, h => let ⟨x, hw⟩ := eq_wordXK_of_selects_F0FF (a := 0xF) (k := 0x65) h; ⟨.ldVxI x, hw⟩

/-- No word can match the patterns of both rows: they differ at a bit that both masks keep. -/
def Apart (r r' : OpcodeRow) : Prop := r.pattern &&& r'.mask ≠ r'.pattern &&& r.mask

theorem Apart.not_selects_both {r r' : OpcodeRow} (h : Apart r r') (w : Word) :
    ¬ (r.selects w = true ∧ r'.selects w = true) := by
  rintro ⟨hr, hr'⟩
  rw [OpcodeRow.selects, beq_iff_eq] at hr hr'
  exact h (by rw [← hr, ← hr', BitVec.and_assoc, BitVec.and_assoc, BitVec.and_comm r.mask])

theorem opcodeMap_apart : opcodeMap.Pairwise Apart := by
  unfold Apart
  decide

theorem length_filter_le_one {α : Type} {p : α → Bool} {l : List α}
    (h : l.Pairwise fun a b => ¬ (p a = true ∧ p b = true)) : (l.filter p).length ≤ 1 := by
  induction l with
  | nil => exact Nat.zero_le 1
  | cons a l ih =>
    obtain ⟨ha, hl⟩ := List.pairwise_cons.1 h
    by_cases hp : p a = true
    · have hnone : l.filter p = [] := List.filter_eq_nil_iff.2 fun b hb hpb => ha b hb ⟨hp, hpb⟩
      rw [List.filter_cons_of_pos hp, hnone, List.length_singleton]
    · rw [List.filter_cons_of_neg hp]
      exact ih hl

/-- The decoder answers `i` at a word exactly when it is the word of `i`. -/
theorem decodeWord_ok_iff_encode (w : Word) (i : Instr) : decodeWord w = .ok i ↔ encode i = w := by
  rw [decodeWord, decode_ok_iff_encode, hiByte_append_loByte]

theorem wordWellFormed_iff_selects (w : Word) :
    wordWellFormed w = true ↔ ∃ r ∈ opcodeMap, r.selects w = true := List.any_eq_true

/-- The implemented words are the words of instructions (R55). -/
theorem wordWellFormed_iff_encode (w : Word) : wordWellFormed w = true ↔ ∃ i, encode i = w := by
  rw [wordWellFormed_iff_selects]
  constructor
  · rintro ⟨r, hr, hw⟩
    obtain ⟨j, rfl⟩ := exists_row_of_mem_opcodeMap hr
    exact exists_encode_of_row_selects hw
  · rintro ⟨i, rfl⟩
    exact ⟨i.row, row_mem_opcodeMap i, row_selects_encode i⟩

/-- A word that is no instruction is rejected by name (R58). -/
theorem decode_of_not_wordWellFormed {b1 b2 : Byte} (h : wordWellFormed (b1 ++ b2) = false) :
    decode b1 b2 = .error (.unimplementedOpcode (b1 ++ b2)) := by
  cases hd : decode b1 b2 with
  | ok i =>
    have hw := (wordWellFormed_iff_encode _).2 ⟨i, (decode_ok_iff_encode b1 b2 i).1 hd⟩
    exact absurd (h.symm.trans hw) Bool.false_ne_true
  | error e => rw [((decode_error_iff b1 b2 e).1 hd).2]

/-- Settles O5: the words of instructions are the words that rows select (`wordWellFormed_iff_encode`),
and the rows lie apart (`opcodeMap_apart`). -/
theorem decoderAgreesWithOpcodeMap : Obligations.DecoderAgreesWithOpcodeMap := by
  unfold Obligations.DecoderAgreesWithOpcodeMap
  refine ⟨fun w => ?_, fun w hw => ?_, fun w => ?_⟩
  · rw [wordWellFormed_iff_encode]
    refine exists_congr fun i => ?_
    rw [decodeWord_ok_iff_encode]
    exact and_iff_left_of_imp fun hw => hw ▸ row_selects_encode i
  · have hd := decode_of_not_wordWellFormed (b1 := hiByte w) (b2 := loByte w)
    rw [hiByte_append_loByte] at hd
    exact hd hw
  · exact length_filter_le_one (opcodeMap_apart.imp fun h => h.not_selects_both w)

end Sys2Proof.Machine

/-! ## What a step does (O6 to O11)

`step_cases` and `step_of_fetches` say what a step does; here their parts are read from the side of a
running machine. -/

namespace Sys2Proof.Machine

/-- Settles O6: the case of `step_cases` that fetches an instruction (`step_of_fetches`). -/
theorem stepRunsDecodedInstruction : Obligations.StepRunsDecodedInstruction := by
  unfold Obligations.StepRunsDecodedInstruction
  intro s i hr hf
  exact step_of_fetches hr hf

theorem valid_of_not_running {s : State} (h : ¬ Running s) : s.err.valid = true :=
  Bool.eq_true_of_not_eq_false h

theorem Running.not_halted {s : State} (h : Running s) : ¬ s.halted = true :=
  fun hv => Bool.false_ne_true (h.symm.trans hv)

theorem step_of_not_running {s : State} (h : ¬ Running s) : step s = .next s := by
  have hv : s.halted = true := valid_of_not_running h
  rw [step, if_pos hv]

theorem tick_of_not_running (c : Config) {s : State} (h : ¬ Running s) : tick c s = s := by
  have hv : s.halted = true := valid_of_not_running h
  rw [tick, if_pos hv]

theorem tick_of_running (c : Config) {s : State} (h : Running s) :
    tick c s = (s.setDt (decTimer c s.dt)).setSt (decTimer c s.st) := by
  rw [tick, if_neg h.not_halted]
  rfl

/-- Settles O7: both transactions check for a latched error first. -/
theorem haltedMachineIsIdle : Obligations.HaltedMachineIsIdle := by
  unfold Obligations.HaltedMachineIsIdle
  intro c s h
  exact ⟨step_of_not_running h, tick_of_not_running c h⟩

theorem step_of_pc_past_end {s : State} (hr : Running s) (hpc : 0xFFE < s.pc.toNat) :
    step s = .next (raise .memoryOutOfBounds 0x0000 (max s.pc.toNat 0x1000) s) := by
  rw [step, if_neg hr.not_halted, fetch_error hpc]
  rfl

/-- An address that a 16-bit word can hold is recorded as it is. -/
theorem max_toNat_ofNat (a : Word) :
    (BitVec.ofNat 16 (max a.toNat 0x1000)).toNat = max a.toNat 0x1000 := by
  have := a.isLt
  rw [BitVec.toNat_ofNat]
  omega

/-- Settles O8: the step raises the fetch's error, which changes `ERR` alone. -/
theorem fetchPastEndLatchesError : Obligations.FetchPastEndLatchesError := by
  unfold Obligations.FetchPastEndLatchesError
  intro s hr hpc
  exact ⟨_, step_of_pc_past_end hr hpc, raise_onlyChanges _ _ _ s, rfl, rfl, rfl, rfl, max_toNat_ofNat s.pc⟩

theorem step_of_decode_error {s : State} {w : Word} (hr : Running s) (hpc : s.pc.toNat ≤ 0xFFE)
    (hd : decode (s.mem.read s.pc.toNat) (s.mem.read (s.pc.toNat + 1)) = .error (.unimplementedOpcode w)) :
    step s = .next (raise .unimplementedOpcode w 0 s) := by
  rw [step, if_neg hr.not_halted, fetch_ok hpc]
  dsimp only
  rw [hd]
  rfl

/-- Settles O9: the decoder rejects the word by name (`decode_of_not_wordWellFormed`), and the step
raises the error. -/
theorem unimplementedWordLatchesError : Obligations.UnimplementedWordLatchesError := by
  unfold Obligations.UnimplementedWordLatchesError
  intro s hr hpc hw
  exact ⟨_, step_of_decode_error hr hpc (decode_of_not_wordWellFormed hw), raise_onlyChanges _ _ _ s, rfl⟩

theorem exec_call_of_room (nnn : Addr) (s : State) (h : s.depth.val < 16) :
    exec (.call nnn) s = .next ((s.push h s.npc).setPc (addrOperand nnn)) := by
  show execCall nnn s = _
  rw [execCall, dif_pos h]

theorem exec_call_of_full (nnn : Addr) (s : State) (h : ¬ s.depth.val < 16) :
    exec (.call nnn) s = .next (raise .stackOverflow (encode (.call nnn)) 0 s) := by
  show execCall nnn s = _
  rw [execCall, dif_neg h]
  rfl

theorem exec_ret_of_active (ign : Nibble) (s : State) (h : s.depth.val ≠ 0) :
    exec (.ret ign) s = .next (s.pop.setPc (s.top h)) := by
  show execRet ign s = _
  rw [execRet, dif_neg h]

theorem exec_ret_of_empty (ign : Nibble) (s : State) (h : s.depth.val = 0) :
    exec (.ret ign) s = .next (raise .stackUnderflow (encode (.ret ign)) 0 s) := by
  show execRet ign s = _
  rw [execRet, dif_pos h]
  rfl

theorem checked_next (w : Word) (c : Option (ErrKind × Nat)) (s d : State) :
    ∃ t, checked w c s d = .next t := by
  rcases checked_cases w c s d with ⟨-, h⟩ | ⟨_, _, -, h⟩ <;> exact ⟨_, h⟩

theorem skipOnKey_next (w : Word) (x : Reg) (pressed : Bool) (s : State) :
    ∃ t, skipOnKey w x pressed s = .next t := by
  unfold skipOnKey
  split <;> exact ⟨_, rfl⟩

/-- Every instruction has a next state: the error of the spec is one (R124). -/
theorem exec_next (i : Instr) (s : State) : ∃ t, exec i s = .next t := by
  cases i with
  | ret ign =>
    by_cases h : s.depth.val = 0
    · exact ⟨_, exec_ret_of_empty ign s h⟩
    · exact ⟨_, exec_ret_of_active ign s h⟩
  | call nnn =>
    by_cases h : s.depth.val < 16
    · exact ⟨_, exec_call_of_room nnn s h⟩
    · exact ⟨_, exec_call_of_full nnn s h⟩
  | drw x y n => exact checked_next _ _ s _
  | ldB x => exact checked_next _ _ s _
  | ldVxI x => exact checked_next _ _ s _
  | skp x => exact skipOnKey_next _ x true s
  | sknp x => exact skipOnKey_next _ x false s
  | _ => exact ⟨_, rfl⟩

theorem step_next (s : State) : ∃ t, step s = .next t := by
  rcases step_cases s with ⟨-, h⟩ | ⟨-, -, h⟩ | ⟨-, -, -, h⟩ | ⟨i, -, -, h⟩
  · exact ⟨s, h⟩
  · exact ⟨_, h⟩
  · exact ⟨_, h⟩
  · rw [h]
    exact exec_next i s

/-- Settles O10: the step and every instruction have a next state (`step_next`, `exec_next`). -/
theorem everyTransactionHasSuccessor : Obligations.EveryTransactionHasSuccessor := by
  unfold Obligations.EveryTransactionHasSuccessor
  intro c tr s
  cases tr with
  | step => exact step_next s
  | _ => exact ⟨_, rfl⟩

/-- The word that an error of a fetched instruction names is the fetched one. -/
theorem Fetches.encode_eq {s : State} {i : Instr} (h : Fetches s i) :
    encode i = s.mem.read s.pc.toNat ++ s.mem.read (s.pc.toNat + 1) :=
  (decode_ok_iff_encode _ _ i).1 h.2

/-- Settles O11: in each case of `step_cases` the error named is raised with the fetched word, or none is
raised (`exec_err_cases`). -/
theorem errorsArePrecise : Obligations.ErrorsArePrecise := by
  unfold Obligations.ErrorsArePrecise
  intro s t hr h
  rcases step_cases s with ⟨hv, -⟩ | ⟨-, hpc, hs⟩ | ⟨-, hpc, -, hs⟩ | ⟨i, -, hf, hs⟩
  · exact absurd (hr.symm.trans hv) Bool.false_ne_true
  · cases hs.symm.trans h
    exact .inr ⟨raise_onlyChanges _ _ _ s, rfl, ⟨.memoryOutOfBounds, rfl⟩, rfl,
      (if_neg (Nat.not_le.2 hpc)).symm⟩
  · cases hs.symm.trans h
    exact .inr ⟨raise_onlyChanges _ _ _ s, rfl, ⟨.unimplementedOpcode, rfl⟩, rfl,
      (if_pos hpc).symm⟩
  · rcases exec_err_cases i s t (hs.symm.trans h) with herr | ⟨e, addr, rfl, -⟩
    · exact .inl herr
    · refine .inr ⟨raise_onlyChanges _ _ _ s, rfl, ⟨e, rfl⟩, rfl, ?_⟩
      rw [if_pos hf.1]
      exact hf.encode_eq

end Sys2Proof.Machine

/-! ## Jumps, calls and returns (O12 to O16) -/

namespace Sys2Proof.Machine

/-- What an instruction that raises an error answers: its word, `PC` and the error in `ERR`, and nothing
else changed (R124). -/
theorem exec_raises {i : Instr} {s : State} {e : ErrKind} {w : Word} {addr : Nat}
    (h : exec i s = .next (raise e w addr s)) :
    ∃ t, exec i s = .next t ∧ OnlyChanges (· = .err) s t ∧
      t.err = ⟨true, e.code, w, s.pc, BitVec.ofNat 16 addr⟩ :=
  ⟨_, h, raise_onlyChanges e w addr s, rfl⟩

theorem exec_jp (nnn : Addr) (s : State) : exec (.jp nnn) s = .next (s.setPc (addrOperand nnn)) := rfl

theorem State.setPc_self {s : State} {a : Word} (h : a = s.pc) : s.setPc a = s := by
  subst h
  rfl

/-- Settles O12: `PC` is written and nothing else, so writing what it holds changes nothing. -/
theorem jumpSetsPc : Obligations.JumpSetsPc := by
  unfold Obligations.JumpSetsPc
  intro nnn s
  refine ⟨_, exec_jp nnn s, addrOperand_toNat nnn, setPc_onlyChanges s _, fun h => ?_⟩
  exact State.setPc_self (BitVec.eq_of_toNat_eq ((addrOperand_toNat nnn).trans h))

/-- A push changes `SP` and the entry it then names (R72). -/
theorem push_onlyChanges (s : State) (h : s.depth.val < 16) (a : Word) :
    OnlyChanges (fun e => e = .sp ∨ e = .stack ⟨s.depth.val, h⟩) s (s.push h a) := by
  intro e he
  cases e with
  | sp => exact absurd (.inl rfl) he
  | stack k => exact s.getStack_push_ne h a k fun hk => he (.inr (congrArg Element.stack (Fin.ext hk)))
  | _ => rfl

/-- A pop changes `SP` alone: the popped entry is not cleared (R70, R15). -/
theorem pop_onlyChanges (s : State) : OnlyChanges (· = .sp) s s.pop := by
  intro e he
  cases e with
  | sp => exact absurd rfl he
  | _ => rfl

theorem push_sp (s : State) (h : s.depth.val < 16) (a : Word) : (s.push h a).sp = s.sp + 1 := by
  simp only [State.sp, State.push_depth]
  omega

theorem pop_sp (s : State) (h : s.depth.val ≠ 0) : s.pop.sp = s.sp - 1 := by
  simp only [State.sp, State.pop_depth]
  omega

/-- Settles O13: a push, then the jump. -/
theorem callPushesReturnAddress : Obligations.CallPushesReturnAddress := by
  unfold Obligations.CallPushesReturnAddress
  intro nnn s h
  refine ⟨_, exec_call_of_room nnn s h, push_sp s h s.npc, ?_, addrOperand_toNat nnn, ?_⟩
  · rw [State.getStack_setPc, State.getStack_push_same, State.npc_eq]
  · exact ((push_onlyChanges s h s.npc).trans (setPc_onlyChanges _ _)).mono fun e he => by tauto

/-- Settles O14: a pop, then the jump to the entry popped. -/
theorem returnPopsPc : Obligations.ReturnPopsPc := by
  unfold Obligations.ReturnPopsPc
  intro ign s h
  have h0 : s.depth.val ≠ 0 := Nat.ne_of_gt h
  exact ⟨_, exec_ret_of_active ign s h0, rfl, pop_sp s h0,
    ((pop_onlyChanges s).trans (setPc_onlyChanges _ _)).mono fun e he => he.symm⟩

/-- Settles O15: `SP` is 15 at depth 16 and -1 at depth 0, where the two instructions raise. -/
theorem stackLimitsLatchErrors : Obligations.StackLimitsLatchErrors := by
  unfold Obligations.StackLimitsLatchErrors
  refine ⟨fun nnn s h => ?_, fun ign s h => ?_⟩ <;> rw [State.sp] at h
  · exact exec_raises (exec_call_of_full nnn s (by omega))
  · exact exec_raises (exec_ret_of_empty ign s (by omega))

theorem execAll_cons {i : Instr} {s t : State} (h : exec i s = .next t) (is : List Instr) :
    execAll (i :: is) s = execAll is t := by
  rw [execAll, h]

theorem execAll_append {is : List Instr} {s t : State} (h : execAll is s = .next t) (js : List Instr) :
    execAll (is ++ js) s = execAll js t := by
  induction is generalizing s with
  | nil =>
    cases h
    rfl
  | cons i is ih =>
    obtain ⟨u, hu⟩ := exec_next i s
    rw [execAll_cons hu] at h
    rw [List.cons_append, execAll_cons hu, ih h]

/-- The list of calls, and then as many returns. -/
def callsAndReturns (calls : List Addr) : List Instr :=
  calls.map .call ++ List.replicate calls.length (.ret 0)

theorem callsAndReturns_cons (a : Addr) (calls : List Addr) :
    callsAndReturns (a :: calls) = .call a :: (callsAndReturns calls ++ [.ret 0]) := by
  simp [callsAndReturns, List.replicate_succ']

/-- The elements that nested calls may leave changed: `PC` and the entries from the old depth up. -/
def PcOrStackFrom (d : Nat) (e : Element) : Prop := e = .pc ∨ ∃ k : Fin 16, d ≤ k.val ∧ e = .stack k

/-- Calls that fit, and as many returns, come back behind the first call. Each call pushes an entry that
the calls nested in it leave alone, and that its own return takes. -/
theorem execAll_callsAndReturns (calls : List Addr) (s : State) (hroom : s.depth.val + calls.length ≤ 16) :
    ∃ t, execAll (callsAndReturns calls) s = .next t ∧ (calls ≠ [] → t.pc = s.pc + 2) ∧
      OnlyChanges (PcOrStackFrom s.depth.val) s t := by
  induction calls generalizing s with
  | nil => exact ⟨s, rfl, fun h => absurd rfl h, OnlyChanges.refl _ s⟩
  | cons a calls ih =>
    rw [List.length_cons] at hroom
    have h : s.depth.val < 16 := by omega
    obtain ⟨s₁, hcall, hsp₁, hentry, -, hframe₁⟩ := callPushesReturnAddress a s h
    have hd₁ : s₁.depth.val = s.depth.val + 1 := by simp only [State.sp] at hsp₁; omega
    obtain ⟨s₂, hinner, -, hframe₂⟩ := ih s₁ (by omega)
    have hd₂ : s₂.depth = s₁.depth := hframe₂ .sp (by simp [PcOrStackFrom])
    have hkept : s₂.getStack ⟨s.depth.val, h⟩ = s₁.getStack ⟨s.depth.val, h⟩ :=
      hframe₂ (.stack _) (by simp [PcOrStackFrom, hd₁])
    obtain ⟨t, hret, hpc, hsp, hframe⟩ := returnPopsPc 0 s₂ (by omega)
    have htop : (⟨s₂.depth.val - 1, by omega⟩ : Fin 16) = ⟨s.depth.val, h⟩ := 
      Fin.ext (show s₂.depth.val - 1 = s.depth.val by omega)
    refine ⟨t, ?_, fun _ => ?_, fun e he => ?_⟩
    · rw [callsAndReturns_cons, execAll_cons hcall, execAll_append hinner, execAll_cons hret]
      rfl
    · rw [hpc, htop, hkept, hentry]
    · by_cases hs : e = .sp
      · subst hs
        simp only [State.sp] at hsp
        exact Fin.ext (by omega)
      · refine ((hframe₁.trans hframe₂).trans hframe) e ?_
        rintro (((hp | hs' | rfl) | hp | ⟨k, hk, rfl⟩) | hp | hs')
        · exact he (.inl hp)
        · exact hs hs'
        · exact he (.inr ⟨_, le_rfl, rfl⟩)
        · exact he (.inl hp)
        · exact he (.inr ⟨k, by omega, rfl⟩)
        · exact he (.inl hp)
        · exact hs hs'

/-- Settles O16: the general list of calls, here not empty (`execAll_callsAndReturns`). -/
theorem nestedCallsReturn : Obligations.NestedCallsReturn := by
  unfold Obligations.NestedCallsReturn
  intro first more s hroom
  obtain ⟨t, ht, hpc, hframe⟩ := execAll_callsAndReturns (first :: more) s hroom
  exact ⟨t, ht, hpc (List.cons_ne_nil _ _), hframe⟩

end Sys2Proof.Machine

/-! ## The sum, the difference and the random byte (O23 to O25), and the glyph address (O27) -/

namespace Sys2Proof.Machine

theorem exec_addReg (x y : Reg) (s : State) : exec (.addReg x y) s = .next
    (s.setFlagThenResult (carry (s.getV x) (s.getV y)) x (sumByte (s.getV x) (s.getV y))).advance := rfl

theorem exec_subReg (x y : Reg) (s : State) : exec (.subReg x y) s = .next
    (s.setFlagThenResult (notBorrow (s.getV x) (s.getV y)) x (diffByte (s.getV x) (s.getV y))).advance := rfl

theorem exec_rnd (x : Reg) (kk : Byte) (s : State) :
    exec (.rnd x kk) s = .next (s.randByte.2.setV x (s.randByte.1 &&& kk)).advance := rfl

theorem exec_ldF (x : Reg) (s : State) :
    exec (.ldF x) s = .next (s.setI (glyphAddr (s.getV x))).advance := rfl

/-- The whole effect of an instruction that writes a flag and then a result, and goes on (R87, R52). -/
theorem exec_writes_flag_then_result {i : Instr} {s : State} {flag : Bool} {x : Reg} {b : Byte}
    (h : exec i s = .next (s.setFlagThenResult flag x b).advance) :
    ∃ t, exec i s = .next t ∧ t.getV x = b ∧ (x ≠ 15 → t.getV 15 = flagByte flag) ∧ t.pc = s.pc + 2 ∧
      OnlyChanges (fun e => e = .v x ∨ e = .v 15 ∨ e = .pc) s t := by
  refine ⟨_, h, ?_, fun hx => ?_, rfl, ?_⟩
  · rw [State.getV_advance, setFlagThenResult_result]
  · rw [State.getV_advance, setFlagThenResult_flag s flag x b hx]
  · exact ((setFlagThenResult_onlyChanges s flag x b).trans (setPc_onlyChanges _ _)).mono
      fun e he => or_assoc.1 he

theorem flagByte_carry (a b : Byte) :
    flagByte (carry a b) = if 256 ≤ a.toNat + b.toNat then 1 else 0 := by
  simp only [flagByte, carry_eq]

theorem flagByte_notBorrow (a b : Byte) :
    flagByte (notBorrow a b) = if a.toNat < b.toNat then 0 else 1 := by
  by_cases h : a.toNat < b.toNat
  · simp [flagByte, notBorrow_eq, h]
  · simp [flagByte, notBorrow_eq, h, Nat.not_lt.1 h]

/-- The difference over the integers, reduced modulo 256 (R85). -/
theorem diffByte_toInt_mod (a b : Byte) :
    ((diffByte a b).toNat : Int) = (a.toNat - b.toNat : Int) % 256 := by
  have := b.isLt
  rw [diffByte_toNat]
  omega

/-- Settles O23: the flag is the carry, the result the sum modulo 256. -/
theorem addRegistersSetsCarry : Obligations.AddRegistersSetsCarry := by
  unfold Obligations.AddRegistersSetsCarry
  intro x y s
  obtain ⟨t, ht, hv, hflag, hpc, hframe⟩ := exec_writes_flag_then_result (exec_addReg x y s)
  exact ⟨t, ht, hv ▸ sumByte_toNat _ _, fun hx => (hflag hx).trans (flagByte_carry _ _), hpc, hframe⟩

/-- Settles O24: the flag is the not-borrow, the result the difference modulo 256. -/
theorem subRegistersSetsNotBorrow : Obligations.SubRegistersSetsNotBorrow := by
  unfold Obligations.SubRegistersSetsNotBorrow
  intro x y s
  obtain ⟨t, ht, hv, hflag, hpc, hframe⟩ := exec_writes_flag_then_result (exec_subReg x y s)
  exact ⟨t, ht, hv ▸ diffByte_toInt_mod _ _, fun hx => (hflag hx).trans (flagByte_notBorrow _ _), hpc,
    hframe⟩

/-- A masked byte has no bit outside the mask. -/
theorem and_and_not (a m : Byte) : a &&& m &&& ~~~m = 0 := by
  rw [BitVec.and_assoc, BitVec.and_not_self]
  exact BitVec.and_zero

/-- Settles O25: the draw moves the counter, whatever the mask; then the masked byte is written. -/
theorem randomByteIsMasked : Obligations.RandomByteIsMasked := by
  unfold Obligations.RandomByteIsMasked
  intro x kk s
  have hv : ((s.randByte.2.setV x (s.randByte.1 &&& kk)).advance).getV x =
      Config.randByte s.draws &&& kk := by
    rw [State.getV_advance, State.getV_setV_same]
    rfl
  refine ⟨_, exec_rnd x kk s, hv, ?_, rfl, rfl, ?_⟩
  · rw [hv, and_and_not]
  · exact ((randByte_onlyChanges s).trans (setV_advance_onlyChanges _ x _)).mono fun e he => by tauto

/-- Settles O27: the word written to `I` is five times the byte, which fits 16 bits. -/
theorem loadGlyphAddressIsExact : Obligations.LoadGlyphAddressIsExact := by
  unfold Obligations.LoadGlyphAddressIsExact
  intro x s
  obtain ⟨t, ht, hi, hpc, hframe⟩ := exec_writes_index (exec_ldF x s)
  exact ⟨t, ht, hi ▸ glyphAddr_toNat _, hpc, hframe⟩

end Sys2Proof.Machine

/-! ## Memory and the accesses to it (O28 to O33) -/

namespace Sys2Proof.Machine

theorem exec_ldB (x : Reg) (s : State) : exec (.ldB x) s =
    checked (encode (.ldB x)) (checkRange (s.effAddr 0) 2 .write) s
      (storeDigits (s.getV x) s).advance := rfl

theorem exec_ldVxI (x : Reg) (s : State) : exec (.ldVxI x) s =
    checked (encode (.ldVxI x)) (checkRange (s.effAddr 0) x.val .read) s
      (loadRegs s (x.val + 1)).advance := rfl

theorem exec_drw (x y : Reg) (n : Fin 16) (s : State) : exec (.drw x y n) s =
    checked (encode (.drw x y n)) (checkSprite s n.val) s
      (finishDraw (drawRows s (s.getV x).toNat (s.getV y).toNat n.val) s).advance := rfl

theorem effAddr_zero (s : State) : s.effAddr 0 = s.i.toNat := rfl

/-- Settles O33: the rules of a read after a write, and `cells_ext` for equal memories. -/
theorem memoryIsPlainStorage : Obligations.MemoryIsPlainStorage := by
  unfold Obligations.MemoryIsPlainStorage
  refine ⟨fun m a b v hm ha => ⟨m.write_wf hm a v, m.read_write_same hm a v ha, m.read_write_ne hm a b v⟩,
    fun m m' hm hm' h => ?_⟩
  exact congrArg Memory.mk (cells_ext hm hm' h)

/-- Settles O32: a range lies inside its bounds when its first and its last byte do. -/
theorem rangeCheckCoversEveryByte : Obligations.RangeCheckCoversEveryByte := by
  unfold Obligations.RangeCheckCoversEveryByte
  intro a k acc
  cases acc with
  | read =>
    rw [checkRange_read_eq_none]
    exact ⟨fun h j hj => ⟨by omega, nofun⟩, fun h => (h k le_rfl).1⟩
  | write =>
    rw [checkRange_write_eq_none]
    exact ⟨fun h j hj => ⟨by omega, fun _ => by omega⟩,
      fun h => ⟨(h 0 (Nat.zero_le k)).2 rfl, (h k le_rfl).1⟩⟩

theorem exec_ldB_of_inside {x : Reg} {s : State} (hlo : 0x200 ≤ s.i.toNat) (hhi : s.i.toNat ≤ 0xFFD) :
    exec (.ldB x) s = .next (storeDigits (s.getV x) s).advance := by
  rw [exec_ldB, effAddr_zero, checkRange_write_eq_none.2 ⟨hlo, by omega⟩]
  rfl

/-- The stores of `LD B, Vx` change the three bytes from `I` (R92). -/
theorem storeDigits_onlyChanges (b : Byte) (s : State) (hm : s.mem.wf = true) (hfit : s.effAddr 2 < 0x1000) :
    OnlyChanges (fun e => ∃ j, j ≤ 2 ∧ e = .mem (s.effAddr j)) s (storeDigits b s) := by
  obtain ⟨-, -, -, hother, -⟩ := storeDigits_spec b s hm hfit
  intro e he
  cases e with
  | mem a =>
    exact hother a (fun h => he ⟨0, by omega, by rw [h]⟩) (fun h => he ⟨1, by omega, by rw [h]⟩)
      (fun h => he ⟨2, by omega, by rw [h]⟩)
  | _ => rfl

/-- Settles O28: the three stores, behind a check that passes. -/
theorem storeDigitsWritesThreeBytes : Obligations.StoreDigitsWritesThreeBytes := by
  unfold Obligations.StoreDigitsWritesThreeBytes
  intro x s hm hlo hhi
  have hfit : s.effAddr 2 < 0x1000 := by rw [State.effAddr]; omega
  obtain ⟨h0, h1, h2, -, -⟩ := storeDigits_spec (s.getV x) s hm hfit
  refine ⟨_, exec_ldB_of_inside hlo hhi, ?_, ?_, ?_, rfl, ?_⟩
  · rw [State.advance_mem, h0, hundreds_toNat]
  · rw [State.advance_mem, h1, tens_toNat]
  · rw [State.advance_mem, h2, ones_toNat]
  · exact ((storeDigits_onlyChanges _ s hm hfit).trans (setPc_onlyChanges _ _)).mono fun e he => he.symm

/-- A checked instruction whose check fails raises the check's error. -/
theorem exec_checked_raises {i : Instr} {s d : State} {c : Option (ErrKind × Nat)} {e : ErrKind} {addr : Nat}
    (h : exec i s = checked (encode i) c s d) (hc : c = some (e, addr)) :
    ∃ t, exec i s = .next t ∧ OnlyChanges (· = .err) s t ∧
      t.err = ⟨true, e.code, encode i, s.pc, BitVec.ofNat 16 addr⟩ := by
  rw [hc, checked_some] at h
  exact exec_raises h

/-- Settles O29: below the floor and past the end the check fails, with its own error each. -/
theorem storeDigitsOutsideProgramRegionLatchesError :
    Obligations.StoreDigitsOutsideProgramRegionLatchesError := by
  unfold Obligations.StoreDigitsOutsideProgramRegionLatchesError
  refine fun x s => ⟨fun h => ?_, fun h => ?_⟩
  · have hraise := exec_checked_raises (exec_ldB x s) (checkRange_write_below h)
    rwa [effAddr_zero, BitVec.ofNat_toNat, BitVec.setWidth_eq] at hraise
  · exact exec_checked_raises (exec_ldB x s)
      (checkRange_write_past_end (by rw [effAddr_zero]; omega) (by rw [effAddr_zero]; omega))

/-- Settles O30: `loadRegs` writes the registers up to `x`, behind a check that passes. -/
theorem loadRegistersReadsMemory : Obligations.LoadRegistersReadsMemory := by
  unfold Obligations.LoadRegistersReadsMemory
  intro x s hin
  obtain ⟨hv, hs⟩ := loadRegs_spec s (x.val + 1) (by omega)
  have hexec : exec (.ldVxI x) s = .next (loadRegs s (x.val + 1)).advance := by
    rw [exec_ldVxI, checkRange_read_eq_none.2 (by rw [InsideMemory] at hin; omega)]
    rfl
  refine ⟨_, hexec, fun r hr => ?_, ?_, ?_⟩
  · rw [State.getV_advance, hv, if_pos (Nat.lt_succ_of_le (Fin.le_def.1 hr))]
  · rw [State.advance_pc, hs]
  · intro e he
    cases e with
    | v r =>
      have hr : ¬ r.val < x.val + 1 := fun hr => he (.inr ⟨r, Fin.le_def.2 (Nat.le_of_lt_succ hr), rfl⟩)
      exact (hv r).trans (if_neg hr)
    | pc => exact absurd (.inl rfl) he
    | _ =>
      rw [hs]
      rfl

/-- Settles O31: the bytes reach past the end, so the check fails. -/
theorem readPastEndLatchesError : Obligations.ReadPastEndLatchesError := by
  unfold Obligations.ReadPastEndLatchesError
  refine ⟨fun x s hout => ?_, fun x y n s hn hout => ?_⟩ <;> rw [InsideMemory] at hout
  · exact exec_checked_raises (exec_ldVxI x s) (checkRange_read_past_end (by omega))
  · have hn0 : n.val ≠ 0 := fun h => hn (Fin.ext h)
    have hc : checkSprite s n.val = some (.memoryOutOfBounds, max s.i.toNat 0x1000) := by
      rw [checkSprite, if_neg hn0, checkRange_read_past_end (by omega), effAddr_zero]
    exact exec_checked_raises (exec_drw x y n s) hc

end Sys2Proof.Machine

/-! ## Drawing (O34 to O36)

`drawRows_drawn` says what one draw does to the canvas. The obligations read it from the state after the
instruction, once and twice. -/

namespace Sys2Proof.Machine

/-- The state after `DRW Vx, Vy, n` when its sprite lies inside memory (R100). -/
def drawnState (x y : Reg) (n : Fin 16) (s : State) : State :=
  (finishDraw (drawRows s (s.getV x).toNat (s.getV y).toNat n.val) s).advance

theorem exec_drw_of_inside {x y : Reg} {n : Fin 16} {s : State} (h : n = 0 ∨ InsideMemory s n.val) :
    exec (.drw x y n) s = .next (drawnState x y n s) := by
  rw [exec_drw, checkSprite_eq_none.2 (h.imp_left fun h => congrArg Fin.val h)]
  rfl

theorem drawnState_flag (x y : Reg) (n : Fin 16) (s : State) : (drawnState x y n s).getV 15 =
    flagByte (drawRows s (s.getV x).toNat (s.getV y).toNat n.val).collision :=
  State.getV_setV_same _ vf _

/-- A draw writes `PC`, `V[15]` and pixels (R100). -/
theorem drawnState_onlyChanges (x y : Reg) (n : Fin 16) (s : State) :
    OnlyChanges (fun e => e = .pc ∨ e = .v 15 ∨ ∃ py px, e = .disp py px) s (drawnState x y n s) := by
  intro e he
  cases e with
  | v r => exact State.getV_setV_ne _ vf r _ fun h => he (.inr (.inl (by rw [h]; rfl)))
  | pc => exact absurd (.inl rfl) he
  | disp py px => exact absurd (.inr (.inr ⟨py, px, rfl⟩)) he
  | _ => rfl

/-- The display and the collision flag of a draw, read from the state it leaves (R101 to R104). -/
theorem drawnState_drawn (x y : Reg) (n : Fin 16) (s : State) :
    Drawn (Covers s (s.getV x).toNat (s.getV y).toNat n.val) ⟨s.disp, false⟩
      ⟨(drawnState x y n s).disp, (drawRows s (s.getV x).toNat (s.getV y).toNat n.val).collision⟩ :=
  drawRows_drawn s _ _ n.val

theorem flagByte_eq_one_iff (b : Bool) : flagByte b = 1 ↔ b = true := by cases b <;> decide

theorem flagByte_eq_zero_iff (b : Bool) : flagByte b = 0 ↔ b = false := by cases b <;> decide

/-- `V[15]` after a draw is 1 exactly when a covered pixel was on (R104). -/
theorem drawnState_flag_eq_one_iff (x y : Reg) (n : Fin 16) (s : State) :
    (drawnState x y n s).getV 15 = 1 ↔
      ∃ py px, Covers s (s.getV x).toNat (s.getV y).toNat n.val py px ∧ s.disp.get py px = true := by
  rw [drawnState_flag, flagByte_eq_one_iff, (drawRows_drawn s _ _ n.val).collision]
  simp

theorem drawnState_flag_eq_zero_iff (x y : Reg) (n : Fin 16) (s : State) :
    (drawnState x y n s).getV 15 = 0 ↔
      ¬ ∃ py px, Covers s (s.getV x).toNat (s.getV y).toNat n.val py px ∧ s.disp.get py px = true := by
  rw [← drawnState_flag_eq_one_iff, drawnState_flag, flagByte_eq_zero_iff, flagByte_eq_one_iff,
    Bool.not_eq_true]

/-- Settles O34: what `drawRows_drawn` says of the canvas, read from the state. -/
theorem drawTogglesCoveredPixels : Obligations.DrawTogglesCoveredPixels := by
  unfold Obligations.DrawTogglesCoveredPixels
  intro x y n s h
  have hdrawn := drawnState_drawn x y n s
  exact ⟨_, exec_drw_of_inside h, hdrawn.toggled, hdrawn.kept, (drawnState_flag_eq_one_iff x y n s).2,
    (drawnState_flag_eq_zero_iff x y n s).2, rfl, drawnState_onlyChanges x y n s⟩

/-- What a sprite covers is the same after a draw: `I` and memory stay (R94, D19). -/
theorem covers_drawnState (x y : Reg) (n : Fin 16) (s : State) (X Y m : Nat) (py : Fin 32) (px : Fin 64) :
    Covers (drawnState x y n s) X Y m py px ↔ Covers s X Y m py px :=
  Covers.congr rfl (fun _ => rfl) X Y m py px

theorem getV_drawnState_ne (x y : Reg) (n : Fin 16) (s : State) {r : Reg} (hr : r ≠ 15) :
    (drawnState x y n s).getV r = s.getV r := State.getV_setV_ne _ vf r _ hr

/-- The second of two draws covers the pixels of the first: its coordinates are still those of the first,
if neither stands in `V[15]`. -/
theorem covers_second_draw {x y : Reg} (hx : x ≠ 15) (hy : y ≠ 15) (n : Fin 16) (s : State) (py : Fin 32)
    (px : Fin 64) :
    Covers (drawnState x y n s) ((drawnState x y n s).getV x).toNat ((drawnState x y n s).getV y).toNat
      n.val py px ↔ Covers s (s.getV x).toNat (s.getV y).toNat n.val py px := by
  rw [covers_drawnState, getV_drawnState_ne x y n s hx, getV_drawnState_ne x y n s hy]

/-- A covered pixel is toggled twice, any other not at all. -/
theorem draw_twice_disp {x y : Reg} (hx : x ≠ 15) (hy : y ≠ 15) (n : Fin 16) (s : State) (py : Fin 32)
    (px : Fin 64) : (drawnState x y n (drawnState x y n s)).disp.get py px = s.disp.get py px := by
  have hfirst := drawnState_drawn x y n s
  have hsecond := (drawnState_drawn x y n (drawnState x y n s)).congr (covers_second_draw hx hy n s)
  by_cases hc : Covers s (s.getV x).toNat (s.getV y).toNat n.val py px
  · calc _ = !(drawnState x y n s).disp.get py px := hsecond.toggled py px hc
      _ = !!s.disp.get py px := congrArg not (hfirst.toggled py px hc)
      _ = s.disp.get py px := Bool.not_not _
  · exact (hsecond.kept py px hc).trans (hfirst.kept py px hc)

/-- The second draw finds a covered pixel on exactly when it was off before the first (R106). -/
theorem draw_twice_flag {x y : Reg} (hx : x ≠ 15) (hy : y ≠ 15) (n : Fin 16) (s : State) :
    (drawnState x y n (drawnState x y n s)).getV 15 = 1 ↔
      ∃ py px, Covers s (s.getV x).toNat (s.getV y).toNat n.val py px ∧ s.disp.get py px = false := by
  rw [drawnState_flag_eq_one_iff]
  refine exists_congr fun py => exists_congr fun px => ?_
  rw [covers_second_draw hx hy]
  refine and_congr_right fun hc => ?_
  have htoggled : (drawnState x y n s).disp.get py px = !s.disp.get py px :=
    (drawnState_drawn x y n s).toggled py px hc
  rw [htoggled, Bool.not_eq_true']

/-- Settles O35: the second draw covers the same pixels, so it toggles them back (`draw_twice_disp`), and
it collides where they were off at first (`draw_twice_flag`). -/
theorem drawTwiceRestoresDisplay : Obligations.DrawTwiceRestoresDisplay := by
  unfold Obligations.DrawTwiceRestoresDisplay
  intro x y n s hx hy h
  have hsecond : n = 0 ∨ InsideMemory (drawnState x y n s) n.val := h
  refine ⟨drawnState x y n (drawnState x y n s), ?_, draw_twice_disp hx hy n s,
    draw_twice_flag hx hy n s, fun e he => ?_⟩
  · rw [execAll_cons (exec_drw_of_inside h), execAll_cons (exec_drw_of_inside hsecond)]
    rfl
  · by_cases hdisp : ∃ py px, e = .disp py px
    · obtain ⟨py, px, rfl⟩ := hdisp
      exact draw_twice_disp hx hy n s py px
    · refine ((drawnState_onlyChanges x y n s).trans (drawnState_onlyChanges x y n _)) e fun hw => ?_
      rcases or_self_iff.1 hw with hpc | hflag | hpixel
      · exact he (.inl hpc)
      · exact he (.inr hflag)
      · exact hdisp hpixel

/-- A sprite whose origin lies outside the grid covers no pixel (R103). -/
theorem not_covers_of_origin_outside {s : State} {X Y n : Nat} (h : 64 ≤ X ∨ 32 ≤ Y) (py : Fin 32)
    (px : Fin 64) : ¬ Covers s X Y n py px := by
  rintro ⟨row, col, -, -, -, hpx, hpy⟩
  omega

theorem Display.ext_get {d d' : Display} (h : ∀ py px, d.get py px = d'.get py px) : d = d' := by
  apply Vector.ext
  intro py hpy
  apply Vector.ext
  intro px hpx
  exact h ⟨py, hpy⟩ ⟨px, hpx⟩

/-- Settles O36: no pixel is covered, so none is toggled and none collides. -/
theorem drawOutsideGridIsInvisible : Obligations.DrawOutsideGridIsInvisible := by
  unfold Obligations.DrawOutsideGridIsInvisible
  intro x y n s h hout
  have hnone := not_covers_of_origin_outside (s := s) (n := n.val) hout
  refine ⟨_, exec_drw_of_inside h, Display.ext_get fun py px => ?_, ?_⟩
  · exact (drawnState_drawn x y n s).kept py px (hnone py px)
  · exact (drawnState_flag_eq_zero_iff x y n s).2 fun ⟨py, px, hc, _⟩ => hnone py px hc

end Sys2Proof.Machine

/-! ## The keys (O37, O38, O44) -/

namespace Sys2Proof.Machine

theorem exec_skp (x : Reg) (s : State) : exec (.skp x) s = skipOnKey (encode (.skp x)) x true s := rfl

theorem exec_sknp (x : Reg) (s : State) : exec (.sknp x) s = skipOnKey (encode (.sknp x)) x false s := rfl

/-- A skip on a key that `V[x]` names writes `PC` alone. -/
theorem exec_skipOnKey_of_named {i : Instr} {w : Word} {x : Reg} {pressed : Bool} {s : State}
    (hexec : exec i s = skipOnKey w x pressed s) (h : (s.getV x).toNat < 16) :
    ∃ t, exec i s = .next t ∧ OnlyChanges (· = .pc) s t ∧
      t.pc = if s.getKey ⟨(s.getV x).toNat, h⟩ = pressed then s.pc + 2 + 2 else s.pc + 2 := by
  rw [skipOnKey, keyOperand_of_lt h] at hexec
  refine ⟨_, hexec, skipIf_onlyChanges s _, ?_⟩
  simp [State.npc]

/-- A skip on a key that does not exist raises `KeyIndexOutOfBounds` with `V[x]`. -/
theorem exec_skipOnKey_of_unnamed {i : Instr} {w : Word} {x : Reg} {pressed : Bool} {s : State}
    (hexec : exec i s = skipOnKey w x pressed s) (h : 15 < (s.getV x).toNat) :
    ∃ t, exec i s = .next t ∧ OnlyChanges (· = .err) s t ∧
      t.err = ⟨true, 5, w, s.pc, (s.getV x).setWidth 16⟩ := by
  rw [skipOnKey, keyOperand_of_ge h] at hexec
  have hraise := exec_raises hexec
  rwa [BitVec.ofNat_toNat] at hraise

/-- Settles O37: both are the skip on a named key, with the two states of the key. -/
theorem keySkipsReadNamedKey : Obligations.KeySkipsReadNamedKey := by
  unfold Obligations.KeySkipsReadNamedKey
  intro x s h
  exact ⟨exec_skipOnKey_of_named (exec_skp x s) h, exec_skipOnKey_of_named (exec_sknp x s) h⟩

/-- Settles O38: both are the skip on a key that does not exist. -/
theorem keyNumberAbove15LatchesError : Obligations.KeyNumberAbove15LatchesError := by
  unfold Obligations.KeyNumberAbove15LatchesError
  intro x s h
  exact ⟨exec_skipOnKey_of_unnamed (exec_skp x s) h, exec_skipOnKey_of_unnamed (exec_sknp x s) h⟩

theorem keySet_getKey_same (k : Fin 16) (b : Bool) (s : State) : (keySet k b s).getKey k = b := by
  simp [State.getKey, keySet]

theorem keySet_getKey_ne {k q : Fin 16} (b : Bool) (s : State) (h : q ≠ k) :
    (keySet k b s).getKey q = s.getKey q := by
  have h' : k.val ≠ q.val := fun e => h (Fin.ext e.symm)
  simp [State.getKey, keySet, Vector.getElem_set_ne _ _ h']

theorem keySet_onlyChanges (k : Fin 16) (b : Bool) (s : State) :
    OnlyChanges (· = .key k) s (keySet k b s) := by
  intro e he
  cases e with
  | key q => exact keySet_getKey_ne b s fun h => he (by rw [h])
  | _ => rfl

/-- Settles O44: the slot is written, the others are not. -/
theorem keySetWritesOneSlot : Obligations.KeySetWritesOneSlot := by
  unfold Obligations.KeySetWritesOneSlot
  intro k b s
  exact ⟨keySet_getKey_same k b s, keySet_onlyChanges k b s⟩

end Sys2Proof.Machine

/-! ## `TICK`, `LOAD` and `RESET` (O42, O43, O45, O46) -/

namespace Sys2Proof.Machine

/-- A timer above 0 goes down by one (R132). -/
theorem decTimer_toNat_of_ne_zero (c : Config) {b : Byte} (h : b ≠ 0) :
    (decTimer c b).toNat = b.toNat - 1 := by
  rw [decTimer, if_neg h]
  bv_omega

/-- A timer at 0 stays or wraps, as the parameter says (R133). -/
theorem decTimer_zero (c : Config) : decTimer c 0 = if c.timerUnderflow = .saturate then 0 else 255 := by
  rw [decTimer, if_pos rfl]
  cases c.timerUnderflow <;> rfl

/-- Settles O42: while the machine runs, `TICK` is the two timer updates. -/
theorem tickCountsBothTimersDown : Obligations.TickCountsBothTimersDown := by
  unfold Obligations.TickCountsBothTimersDown
  intro c s hr
  rw [tick_of_running c hr]
  refine ⟨(setDt_onlyChanges s _).trans (setSt_onlyChanges _ _), decTimer_toNat_of_ne_zero c,
    decTimer_toNat_of_ne_zero c, fun h => ?_, fun h => ?_⟩
  · rw [State.setSt_dt, State.setDt_dt, h, decTimer_zero]
  · rw [State.setSt_st, h, decTimer_zero]

theorem load_of_length_le {bytes : List Byte} (s : State) (h : bytes.length ≤ 3584) :
    load bytes s = ({ s with mem := s.mem.writeList Config.progBase bytes }, .ok) :=
  if_pos (decide_eq_true h)

theorem load_of_lt_length {bytes : List Byte} (s : State) (h : 3584 < bytes.length) :
    load bytes s = (s, .loadTooLarge) :=
  if_neg fun hw => Nat.not_le.2 h (of_decide_eq_true hw)

/-- What `LOAD` leaves at every address (R143). -/
theorem read_load {bytes : List Byte} {s : State} (hm : s.mem.wf = true) (h : bytes.length ≤ 3584) (a : Nat) :
    (load bytes s).1.mem.read a =
      if ha : 0x200 ≤ a ∧ a < 0x200 + bytes.length then bytes[a - 0x200]'(by omega) else s.mem.read a := by
  rw [load_of_length_le s h]
  exact s.mem.read_writeList hm _ _ (by simp only [Config.progBase, Config.memSize]; omega) a

theorem load_onlyChanges {bytes : List Byte} {s : State} (hm : s.mem.wf = true) (h : bytes.length ≤ 3584) :
    OnlyChanges (fun e => ∃ j, j < bytes.length ∧ e = .mem (0x200 + j)) s (load bytes s).1 := by
  intro e he
  cases e with
  | mem a =>
    have ha : ¬ (0x200 ≤ a ∧ a < 0x200 + bytes.length) := fun ha =>
      he ⟨a - 0x200, by omega, by rw [Nat.add_sub_cancel' ha.1]⟩
    exact (read_load hm h a).trans (dif_neg ha)
  | _ =>
    rw [load_of_length_le s h]
    rfl

/-- Settles O43: the image is written from 0x200, or nothing is. -/
theorem loadCopiesImage : Obligations.LoadCopiesImage := by
  unfold Obligations.LoadCopiesImage
  refine fun bytes s hm => ⟨fun h => ⟨?_, fun j hj => ?_, load_onlyChanges hm h⟩, load_of_lt_length s⟩
  · rw [load_of_length_le s h]
  · rw [read_load hm h, dif_pos (by omega)]
    simp

/-- Each of the 80 font bytes stands in its glyph's row (R25). -/
theorem resetByte_glyph (font : Font) (d : Fin 16) (row : Fin 5) :
    resetByte font (5 * d.val + row.val) = font[d][row] := by
  have hd : (5 * d.val + row.val) / 5 = d.val := by omega
  have hr : (5 * d.val + row.val) % 5 = row.val := by omega
  rw [resetByte, dif_pos (by simp only [Config.fontSize]; omega)]
  simp only [Config.glyphBytes, hd, hr]
  rfl

theorem resetByte_above_font (font : Font) {a : Nat} (h : 80 ≤ a) : resetByte font a = 0 :=
  dif_neg (Nat.not_lt.2 h)

/-- With the default font `RESET` writes the bytes that memory already reads as, so no cell is listed. -/
theorem resetWith_defaultConfig : resetWith defaultConfig = State.reset := by
  have hmem : (resetWith defaultConfig).mem = State.reset.mem :=
    congrArg Memory.mk (cells_ext (resetWith_mem_wf defaultConfig) reset_mem_wf fun a _ =>
      resetWith_mem_read defaultConfig a)
  calc resetWith defaultConfig = { State.reset with mem := (resetWith defaultConfig).mem } := rfl
    _ = State.reset := by rw [hmem]

/-- Settles O45: every element of `State.reset`, and the font by `resetWith_mem_read`. -/
theorem resetGivesEveryElement : Obligations.ResetGivesEveryElement := by
  unfold Obligations.ResetGivesEveryElement
  refine ⟨fun c s => ⟨fun r => ?_, rfl, rfl, rfl, fun k => ?_, rfl, rfl, fun d row => ?_, fun a ha _ => ?_,
    fun y x => ?_, fun k => ?_, rfl, rfl⟩, resetWith_defaultConfig⟩
  · simp [State.getV, reset, resetWith, State.reset]
  · simp [State.getStack, reset, resetWith, State.reset]
  · exact (resetWith_mem_read c _).trans (resetByte_glyph c.font d row)
  · exact (resetWith_mem_read c a).trans (resetByte_above_font c.font ha)
  · simp [Display.get, reset, resetWith, State.reset]
  · simp [State.getKey, reset, resetWith, State.reset]

theorem history_cons {c : Config} {tr : Transaction} {s t : State} (h : transact c tr s = .next t)
    (trs : List Transaction) : history c (tr :: trs) s = history c trs t := by
  rw [history, h]

theorem history_step (c : Config) (s : State) : history c [.step] s = step s := by
  obtain ⟨t, ht⟩ := step_next s
  rw [history_cons (tr := .step) ht, ht]
  rfl

/-- After `RESET` and a `LOAD` that fits, the machine fetches the image's first two bytes (R141). -/
theorem fetches_load_reset (c : Config) (s : State) {b1 b2 : Byte} {rest : List Byte} {i : Instr}
    (hlen : rest.length ≤ 3582) (hd : decode b1 b2 = .ok i) :
    Running (load (b1 :: b2 :: rest) (reset c s)).1 ∧
      Fetches (load (b1 :: b2 :: rest) (reset c s)).1 i := by
  have hlen' : (b1 :: b2 :: rest).length ≤ 3584 := by simp only [List.length_cons]; omega
  have hframe := load_onlyChanges (s := reset c s) (resetWith_mem_wf c) hlen'
  have hread := read_load (s := reset c s) (resetWith_mem_wf c) hlen'
  have hpc : (load (b1 :: b2 :: rest) (reset c s)).1.pc = 0x200 := hframe .pc (by simp)
  have herr : (load (b1 :: b2 :: rest) (reset c s)).1.err = Err.none := hframe .err (by simp)
  refine ⟨congrArg Err.valid herr, ?_, ?_⟩
  · rw [hpc]
    decide
  · have hin : 0x201 < 0x200 + (b1 :: b2 :: rest).length := by simp only [List.length_cons]; omega
    have h0 : (load (b1 :: b2 :: rest) (reset c s)).1.mem.read 0x200 = b1 :=
      (hread 0x200).trans (dif_pos ⟨le_rfl, by omega⟩)
    have h1 : (load (b1 :: b2 :: rest) (reset c s)).1.mem.read 0x201 = b2 :=
      (hread 0x201).trans (dif_pos ⟨by omega, hin⟩)
    rw [hpc]
    exact (congrArg₂ decode h0 h1).trans hd

/-- Settles O46: the step fetches the image's first instruction (`fetches_load_reset`). -/
theorem firstStepAfterLoadRunsImage : Obligations.FirstStepAfterLoadRunsImage := by
  unfold Obligations.FirstStepAfterLoadRunsImage
  intro c s b1 b2 rest i hlen hd
  obtain ⟨hr, hf⟩ := fetches_load_reset c s hlen hd
  calc history c [.reset, .load (b1 :: b2 :: rest), .step] s
      = history c [.step] (load (b1 :: b2 :: rest) (reset c s)).1 := rfl
    _ = step (load (b1 :: b2 :: rest) (reset c s)).1 := history_step c _
    _ = exec i (load (b1 :: b2 :: rest) (reset c s)).1 := step_of_fetches hr hf

end Sys2Proof.Machine

/-! ## The invariant (O48 to O50)

It holds at `RESET`. A step raises an error, which keeps it (`Inv.after_raise`), or runs an instruction: then
each clause is about one or two elements, and the instructions that write them are few (`Writes`). -/

namespace Sys2Proof.Machine

/-- The invariant says nothing of `V`, the timers, the display, the keys and the counter of draws. -/
theorem Inv.congr {c : Config} {s t : State} (h : Inv c s) (hi : t.i = s.i) (hpc : t.pc = s.pc)
    (hstack : t.stack = s.stack) (hmem : t.mem = s.mem) (herr : t.err = s.err) : Inv c t where
  index := hi ▸ h.index
  counter := hpc ▸ h.counter
  entries k := by
    rw [State.getStack, hstack]
    exact h.entries k
  reserved := hmem ▸ h.reserved
  quiet := herr ▸ h.quiet
  latched := by
    rw [herr, hpc]
    exact h.latched
  canonical := hmem ▸ h.canonical

theorem inv_resetWith (c : Config) : Inv c (resetWith c) where
  index := Nat.zero_le _
  counter := by
    show (0x200 : Word).toNat ≤ 0x1002
    decide
  entries k := by simp [State.getStack, resetWith, State.reset]
  reserved a _ := resetWith_mem_read c a
  quiet _ := rfl
  latched h := nomatch h
  canonical := resetWith_mem_wf c

/-- Settles O48: the clauses at the values of `RESET`; the host's state is that of the default
parameters. -/
theorem invariantHoldsAtReset : Obligations.InvariantHoldsAtReset := by
  unfold Obligations.InvariantHoldsAtReset
  exact ⟨inv_resetWith, resetWith_defaultConfig ▸ inv_resetWith defaultConfig⟩

/-- An error changes `ERR` alone, to one of the six codes and the address in `PC` (R124). -/
theorem Inv.after_raise {c : Config} {s : State} (h : Inv c s) (e : ErrKind) (w : Word) (addr : Nat) :
    Inv c (raise e w addr s) where
  index := h.index
  counter := h.counter
  entries := h.entries
  reserved := h.reserved
  quiet hv := nomatch hv
  latched _ := ⟨⟨e, rfl⟩, rfl⟩
  canonical := h.canonical

/-- `I` holds what it held, a 12-bit operand, or five times a byte (R12, R90, R91). -/
theorem exec_index_le {i : Instr} {s t : State} (h : exec i s = .next t) (hi : s.i.toNat ≤ 0xFFF) :
    t.i.toNat ≤ 0xFFF := by
  by_cases hc : t.i = s.i
  · exact hc ▸ hi
  · rcases (writes_of_exec_changed h (e := .i) nofun hc).i_cases with ⟨nnn, rfl⟩ | ⟨x, rfl⟩
    · cases (exec_ldI nnn s).symm.trans h
      rw [State.advance_i, State.setI_i, addrOperand_toNat]
      have := nnn.isLt
      omega
    · cases (exec_ldF x s).symm.trans h
      rw [State.advance_i, State.setI_i, glyphAddr_toNat]
      have := (s.getV x).isLt
      omega

/-- What a call does: it pushes `PC + 2` and jumps, or it raises. -/
theorem exec_call_cases {nnn : Addr} {s t : State} (h : exec (.call nnn) s = .next t) :
    (∃ hd : s.depth.val < 16, t = (s.push hd s.npc).setPc (addrOperand nnn)) ∨
      t = raise .stackOverflow (encode (.call nnn)) 0 s := by
  by_cases hd : s.depth.val < 16
  · cases (exec_call_of_room nnn s hd).symm.trans h
    exact .inl ⟨hd, rfl⟩
  · cases (exec_call_of_full nnn s hd).symm.trans h
    exact .inr rfl

/-- What a return does: it pops into `PC`, or it raises. -/
theorem exec_ret_cases {ign : Nibble} {s t : State} (h : exec (.ret ign) s = .next t) :
    (∃ hd : s.depth.val ≠ 0, t = s.pop.setPc (s.top hd)) ∨
      t = raise .stackUnderflow (encode (.ret ign)) 0 s := by
  by_cases hd : s.depth.val = 0
  · cases (exec_ret_of_empty ign s hd).symm.trans h
    exact .inr rfl
  · cases (exec_ret_of_active ign s hd).symm.trans h
    exact .inl ⟨hd, rfl⟩

/-- After a fetch the next instruction, and the one a skip goes to, start at most at 0x1002 (R14). -/
theorem exec_counter_le {i : Instr} {s t : State} (h : exec i s = .next t) (hpc : s.pc.toNat ≤ 0xFFE)
    (hentries : ∀ k, (s.getStack k).toNat ≤ 0x1000) : t.pc.toNat ≤ 0x1002 := by
  by_cases hnext : t.pc = s.pc + 2
  · rw [hnext]
    bv_omega
  rcases exec_pc_cases h hnext with ⟨nnn, rfl | rfl⟩ | ⟨ign, rfl⟩ | ⟨hskip, -⟩ | ⟨hstay, -⟩
  · cases (exec_jp nnn s).symm.trans h
    rw [State.setPc_pc, addrOperand_toNat]
    have := nnn.isLt
    omega
  · rcases exec_call_cases h with ⟨hd, rfl⟩ | rfl
    · rw [State.setPc_pc, addrOperand_toNat]
      have := nnn.isLt
      omega
    · rw [State.raise_pc]
      omega
  · rcases exec_ret_cases h with ⟨hd, rfl⟩ | rfl
    · exact (hentries ⟨s.depth.val - 1, by omega⟩).trans (by omega)
    · rw [State.raise_pc]
      omega
  · rw [hskip]
    bv_omega
  · rw [hstay]
    omega

/-- A stack entry holds what it held, or the address behind a call that was fetched (R28, R72). -/
theorem exec_entry_le {i : Instr} {s t : State} (h : exec i s = .next t) (hpc : s.pc.toNat ≤ 0xFFE)
    (hentries : ∀ k, (s.getStack k).toNat ≤ 0x1000) (k : Fin 16) : (t.getStack k).toNat ≤ 0x1000 := by
  by_cases hc : t.getStack k = s.getStack k
  · exact hc ▸ hentries k
  obtain ⟨nnn, rfl⟩ := (writes_of_exec_changed h (e := .stack k) nofun hc).stack_cases
  rcases exec_call_cases h with ⟨hd, rfl⟩ | rfl
  · rw [State.getStack_setPc] at hc ⊢
    have hk : k = ⟨s.depth.val, hd⟩ := Fin.ext (by
      by_contra hk
      exact hc (s.getStack_push_ne hd _ k hk))
    rw [hk, State.getStack_push_same, State.npc_eq]
    bv_omega
  · exact absurd rfl hc

/-- What `LD B, Vx` does: it stores the digits in the program region, or it raises. -/
theorem exec_ldB_cases {x : Reg} {s t : State} (h : exec (.ldB x) s = .next t) :
    (0x200 ≤ s.effAddr 0 ∧ s.effAddr 0 + 2 ≤ 0xFFF ∧ t = (storeDigits (s.getV x) s).advance) ∨
      ∃ e addr, t = raise e (encode (.ldB x)) addr s := by
  rw [exec_ldB] at h
  rcases checked_cases (encode (.ldB x)) (checkRange (s.effAddr 0) 2 .write) s
    (storeDigits (s.getV x) s).advance with ⟨hc, hd⟩ | ⟨e, addr, -, hd⟩ <;> cases hd.symm.trans h
  · obtain ⟨hlo, hhi⟩ := checkRange_write_eq_none.1 hc
    exact .inl ⟨hlo, hhi, rfl⟩
  · exact .inr ⟨e, addr, rfl⟩

/-- No instruction writes below 0x200 (R21, R34). -/
theorem exec_reserved {i : Instr} {s t : State} (h : exec i s = .next t) (hm : s.mem.wf = true) {a : Nat}
    (ha : a < 0x200) : t.mem.read a = s.mem.read a := by
  by_contra hc
  obtain ⟨x, rfl⟩ := (writes_of_exec_changed h (e := .mem a) nofun hc).mem_cases
  rcases exec_ldB_cases h with ⟨hlo, hhi, rfl⟩ | ⟨e, addr, rfl⟩
  · rw [effAddr_zero] at hlo hhi
    refine hc (storeDigits_onlyChanges (s.getV x) s hm (by rw [State.effAddr]; omega) (.mem a) ?_)
    rintro ⟨j, -, hj⟩
    injection hj with hj
    rw [State.effAddr] at hj
    omega
  · exact hc rfl

theorem checked_mem {w : Word} {k : Option (ErrKind × Nat)} {s d t : State} (h : checked w k s d = .next t)
    (hd : d.mem = s.mem) : t.mem = s.mem := by
  rcases checked_cases w k s d with ⟨-, h'⟩ | ⟨e, addr, -, h'⟩ <;> cases h'.symm.trans h
  · exact hd
  · rfl

theorem skipOnKey_mem {w : Word} {x : Reg} {pressed : Bool} {s t : State}
    (h : skipOnKey w x pressed s = .next t) : t.mem = s.mem := by
  unfold skipOnKey at h
  split at h <;> cases h <;> rfl

/-- Memory stays the same data under every instruction but `LD B, Vx`. -/
theorem exec_mem_eq {i : Instr} {s t : State} (h : exec i s = .next t) (hi : ∀ x, i ≠ .ldB x) :
    t.mem = s.mem := by
  cases i with
  | ret ign => rcases exec_ret_cases h with ⟨_, rfl⟩ | rfl <;> rfl
  | call nnn => rcases exec_call_cases h with ⟨_, rfl⟩ | rfl <;> rfl
  | skp x | sknp x => exact skipOnKey_mem h
  | drw x y n => exact checked_mem h rfl
  | ldVxI x =>
    refine checked_mem h ?_
    rw [State.advance_mem, (loadRegs_spec s (x.val + 1) (by omega)).2]
  | ldB x => exact absurd rfl (hi x)
  | _ =>
    cases h
    rfl

/-- Every instruction keeps the canonical form of memory. -/
theorem exec_mem_wf {i : Instr} {s t : State} (h : exec i s = .next t) (hm : s.mem.wf = true) :
    t.mem.wf = true := by
  by_cases hi : ∃ x, i = .ldB x
  · obtain ⟨x, rfl⟩ := hi
    rcases exec_ldB_cases h with ⟨-, -, rfl⟩ | ⟨e, addr, rfl⟩
    · exact storeDigits_wf _ s hm
    · exact hm
  · rw [exec_mem_eq h fun x hx => hi ⟨x, hx⟩]
    exact hm

/-- An instruction fetched by a running machine keeps the invariant. -/
theorem Inv.after_exec {c : Config} {i : Instr} {s t : State} (h : Inv c s) (hpc : s.pc.toNat ≤ 0xFFE)
    (hr : Running s) (hexec : exec i s = .next t) : Inv c t := by
  rcases exec_err_cases i s t hexec with herr | ⟨e, addr, rfl, -⟩
  · exact {
      index := exec_index_le hexec h.index
      counter := exec_counter_le hexec hpc h.entries
      entries := exec_entry_le hexec hpc h.entries
      reserved := fun a ha => (exec_reserved hexec h.canonical ha).trans (h.reserved a ha)
      quiet := herr ▸ h.quiet
      latched := fun hv => absurd (hr.symm.trans (herr ▸ hv)) Bool.false_ne_true
      canonical := exec_mem_wf hexec h.canonical }
  · exact h.after_raise e _ addr

/-- Settles O49: each of the four things a step can do keeps the invariant (`step_cases`). -/
theorem stepKeepsInvariant : Obligations.StepKeepsInvariant := by
  unfold Obligations.StepKeepsInvariant
  intro c s t hinv h
  rcases step_cases s with ⟨-, hs⟩ | ⟨-, -, hs⟩ | ⟨-, -, -, hs⟩ | ⟨i, hr, hf, hs⟩
  · cases hs.symm.trans h
    exact hinv
  · cases hs.symm.trans h
    exact hinv.after_raise _ _ _
  · cases hs.symm.trans h
    exact hinv.after_raise _ _ _
  · exact hinv.after_exec hf.1 hr (hs.symm.trans h)

theorem Inv.after_tick {c : Config} {s : State} (h : Inv c s) : Inv c (tick c s) := by
  by_cases hr : Running s
  · rw [tick_of_running c hr]
    exact h.congr rfl rfl rfl rfl rfl
  · rw [tick_of_not_running c hr]
    exact h

/-- Memory after a `LOAD` is in its canonical form, whatever the image's length. -/
theorem load_mem_wf (bytes : List Byte) {s : State} (hm : s.mem.wf = true) :
    (load bytes s).1.mem.wf = true := by
  by_cases hlen : bytes.length ≤ 3584
  · rw [load_of_length_le s hlen]
    exact s.mem.writeList_wf hm _ _
  · rw [load_of_lt_length s (Nat.not_le.1 hlen)]
    exact hm

/-- `LOAD` changes bytes of the program region alone (R143). -/
theorem load_onlyChanges_program (bytes : List Byte) {s : State} (hm : s.mem.wf = true) :
    OnlyChanges (fun e => ∃ a, 0x200 ≤ a ∧ e = .mem a) s (load bytes s).1 := by
  by_cases hlen : bytes.length ≤ 3584
  · exact (load_onlyChanges hm hlen).mono fun e ⟨j, _, he⟩ => ⟨0x200 + j, Nat.le_add_right _ _, he⟩
  · rw [load_of_lt_length s (Nat.not_le.1 hlen)]
    exact OnlyChanges.refl _ s

theorem Inv.after_load {c : Config} {s : State} (h : Inv c s) (bytes : List Byte) : Inv c (load bytes s).1 := by
  have hframe := load_onlyChanges_program bytes h.canonical
  have hi : (load bytes s).1.i = s.i := hframe .i (by simp)
  have hpc : (load bytes s).1.pc = s.pc := hframe .pc (by simp)
  have herr : (load bytes s).1.err = s.err := hframe .err (by simp)
  have hstack (k) : (load bytes s).1.getStack k = s.getStack k := hframe (.stack k) (by simp)
  have hmem {a : Nat} (ha : a < 0x200) : (load bytes s).1.mem.read a = s.mem.read a :=
    hframe (.mem a) (by simpa using ha)
  exact {
    index := hi ▸ h.index
    counter := hpc ▸ h.counter
    entries := fun k => hstack k ▸ h.entries k
    reserved := fun a ha => (hmem ha).trans (h.reserved a ha)
    quiet := herr ▸ h.quiet
    latched := by
      rw [herr, hpc]
      exact h.latched
    canonical := load_mem_wf bytes h.canonical }

theorem Inv.after_transact {c : Config} {tr : Transaction} {s t : State} (h : Inv c s)
    (htr : transact c tr s = .next t) : Inv c t := by
  cases tr with
  | step => exact stepKeepsInvariant c s t h htr
  | reset =>
    cases htr
    exact (inv_resetWith c).congr rfl rfl rfl rfl rfl
  | tick =>
    cases htr
    exact h.after_tick
  | load bytes =>
    cases htr
    exact h.after_load bytes
  | keySet k b =>
    cases htr
    exact h.congr rfl rfl rfl rfl rfl

/-- Settles O50: each transaction keeps the invariant, so it holds along every history from `RESET`. -/
theorem transactionKeepsInvariant : Obligations.TransactionKeepsInvariant := by
  unfold Obligations.TransactionKeepsInvariant
  refine ⟨fun c tr s t h htr => h.after_transact htr, fun c s hs => ?_⟩
  induction hs with
  | reset => exact inv_resetWith c
  | next tr _ htr ih => exact ih.after_transact htr

end Sys2Proof.Machine

/-! ## A latched error stays (O51) -/

namespace Sys2Proof.Machine

/-- What a halted machine may still change: a byte of the program region or a key (R127). -/
def ProgramByteOrKey (e : Element) : Prop := (∃ a, 0x200 ≤ a ∧ e = .mem a) ∨ ∃ k, e = .key k

/-- One transaction of a halted machine, other than `RESET`: `STEP` and `TICK` do nothing, `LOAD` and
`KEY_SET` write where they always write. -/
theorem transact_of_not_running {c : Config} {tr : Transaction} {s t : State} (hm : s.mem.wf = true)
    (hr : ¬ Running s) (htr : tr ≠ .reset) (h : transact c tr s = .next t) :
    t.mem.wf = true ∧ OnlyChanges ProgramByteOrKey s t := by
  cases tr with
  | reset => exact absurd rfl htr
  | step =>
    cases (step_of_not_running hr).symm.trans h
    exact ⟨hm, OnlyChanges.refl _ s⟩
  | tick =>
    cases h
    rw [tick_of_not_running c hr]
    exact ⟨hm, OnlyChanges.refl _ s⟩
  | load bytes =>
    cases h
    exact ⟨load_mem_wf bytes hm, (load_onlyChanges_program bytes hm).mono fun _ => .inl⟩
  | keySet k b =>
    cases h
    exact ⟨hm, (keySet_onlyChanges k b s).mono fun _ he => .inr ⟨k, he⟩⟩

/-- A change of program bytes and keys leaves the latch. -/
theorem not_running_of_onlyChanges {s t : State} (hr : ¬ Running s)
    (h : OnlyChanges ProgramByteOrKey s t) : ¬ Running t := by
  have herr : t.err = s.err := h .err (by simp [ProgramByteOrKey])
  rwa [Running, herr]

theorem history_of_not_running {c : Config} {trs : List Transaction} {s t : State} (hm : s.mem.wf = true)
    (hr : ¬ Running s) (hreset : Transaction.reset ∉ trs) (h : history c trs s = .next t) :
    OnlyChanges ProgramByteOrKey s t := by
  induction trs generalizing s with
  | nil =>
    cases h
    exact OnlyChanges.refl _ _
  | cons tr trs ih =>
    rw [List.mem_cons, not_or] at hreset
    obtain ⟨htr, htrs⟩ := hreset
    obtain ⟨u, hu⟩ := everyTransactionHasSuccessor c tr s
    obtain ⟨hmu, hframe⟩ := transact_of_not_running hm hr (Ne.symm htr) hu
    rw [history_cons hu] at h
    exact (hframe.trans (ih hmu (not_running_of_onlyChanges hr hframe) htrs h)).mono fun _ => or_self_iff.1

/-- Settles O51: along the history only program bytes and keys change (`history_of_not_running`), so the
latch stays. -/
theorem haltedUntilReset : Obligations.HaltedUntilReset := by
  unfold Obligations.HaltedUntilReset
  intro c trs s t hm hr hreset h
  have hframe := history_of_not_running hm hr hreset h
  exact ⟨not_running_of_onlyChanges hr hframe, hframe⟩

end Sys2Proof.Machine
